-- ==== Sys2Proof/Word.lean ====
section
/-! DEFINITION. The word types of JH32: the 32-bit data word (00_scope.md R7, R9), the 80-bit command word and
its fields (30_encoding.md R50), a message byte (00_scope.md R13), and the triple the mixing functions act on
(41_mix.md R80). -/

namespace Sys2Proof

/-- A data word: an unsigned integer in 0 .. 2^32-1 (R9). The operations `+`, `-`, `<<<` of `BitVec` wrap modulo
2^32, `^^^` is bitwise exclusive or and `>>>` is the logical shift (R10). -/
abbrev Word := BitVec 32

/-- The operand field `d` of a command: 64 bits (R50; `XW` of R8). -/
abbrev Operand := BitVec 64

/-- The small field `f` of a command, and the shift amount `n` of LRS: 8 bits (R50; `NW` of R8). -/
abbrev Small := BitVec 8

/-- A lane number `k`: 0 to 3 (R13, R54). -/
abbrev Lane := BitVec 2

/-- One byte of a message (R13). -/
abbrev Byte := BitVec 8

/-- A command word `cmd[79:0]` (R50; `CW` of R8). -/
abbrev CmdWord := BitVec 80

/-- The three words a, b, c that `round` and `mix` take and give (41_mix.md R80, R81). -/
structure Triple where
  /-- The word a. -/
  a : Word
  /-- The word b. -/
  b : Word
  /-- The word c. -/
  c : Word
  deriving DecidableEq, Repr

end Sys2Proof
end

