-- ==== Sys2Proof/Config.lean ====
section
/-! DEFINITION. What the spec leaves to the implementation (00_scope.md R8): the open parameter WIDE_ELEM and the
unspecified values that a reset event leaves in the data registers. Also the names of the data registers
(10_state.md R20) and of the two exceptions (60_exceptions.md R140). -/

namespace Sys2Proof

/-- The open parameter `WIDE_ELEM` (R8, R103, D14): what HABS does with an element above 255. -/
inductive WideElem where
  /-- `as_is`: the element is added whole, modulo 2^32. -/
  | asIs
  /-- `reject`: the command raises InvalidInputEncoding. -/
  | reject
  deriving DecidableEq, Repr, Inhabited

/-- The five data registers of R20. -/
inductive DataReg where
  /-- A, of the MIX unit. -/
  | A
  /-- B, of the MIX unit. -/
  | B
  /-- C, of the MIX unit. -/
  | C
  /-- H, of the OAAT unit. -/
  | H
  /-- R, of the LRS unit. -/
  | R
  deriving DecidableEq, Repr

/-- The two exceptions of R140; there is no other. -/
inductive Exc where
  /-- Raised at decode by a word that matches no row of the opcode table (R141). -/
  | illegalCommand
  /-- Raised by ADDL.x, and by HABS under `reject`, when an operand that must be a byte is above 255 (R142). -/
  | invalidInputEncoding
  deriving DecidableEq, Repr

/-- The value that reset event number `n` leaves in a data register. R29: "unspecified: any 32-bit value each, not
necessarily the same after two resets". A FREE VALUE: the constant has no body that a proof can see.
DESIGN CHOICE (notes/assumptions/1.md). -/
opaque Config.resetValue (n : Nat) (x : DataReg) : Word

/-- The value of WIDE_ELEM at `State.reset`. The spec leaves it OPEN (D14), so nothing constrains it.
DESIGN CHOICE (notes/assumptions/2.md). -/
opaque Config.wideElem : WideElem

end Sys2Proof
end

