-- ==== Sys2Proof/Syntax.lean ====
section
/-! DEFINITION. The fifteen commands of JH32 (30_encoding.md R52), one constructor per row of the opcode table,
each with the operands R54 takes from the word. -/

namespace Sys2Proof

/-- A command of JH32 after decoding. Every operand has exactly the width R54 gives it, so every term is a command
that can be encoded. -/
inductive Instr where
  /-- MINIT (R84): `imm32`, the seed. -/
  | minit (seed : Word)
  /-- MIX (R94). -/
  | mix
  /-- MRND.0 (R91). -/
  | mrnd0
  /-- MRND.1 (R92). -/
  | mrnd1
  /-- MRND.2 (R93). -/
  | mrnd2
  /-- ADDW.A (R85): `imm64`. -/
  | addwA (imm : Operand)
  /-- ADDW.B (R86): `imm64`. -/
  | addwB (imm : Operand)
  /-- ADDW.C (R87): `imm64`. -/
  | addwC (imm : Operand)
  /-- ADDL.A (R88): lane `k`, and `imm64` that must be a byte. -/
  | addlA (k : Lane) (imm : Operand)
  /-- ADDL.B (R89): lane `k`, and `imm64` that must be a byte. -/
  | addlB (k : Lane) (imm : Operand)
  /-- ADDL.C (R90): lane `k`, and `imm64` that must be a byte. -/
  | addlC (k : Lane) (imm : Operand)
  /-- HINIT (R102). -/
  | hinit
  /-- HABS (R103): `imm64`, the element. -/
  | habs (e : Operand)
  /-- HFIN (R104). -/
  | hfin
  /-- LRS (R71): shift amount `n`, and `imm64`, the value. -/
  | lrs (n : Small) (value : Operand)
  deriving DecidableEq, Repr

end Sys2Proof
end

