-- ==== Sys2Proof/WellFormed.lean ====
section
/-! DEFINITION. Well-formed terms. A decoded command (`Instr`) carries its ranges in its types. A WRITTEN command
(`Written`, the assembler's lines of 30_encoding.md R57 and R58) carries plain integers, and R57, R121, R122 and
R123 say which of them an assembler refuses. -/

namespace Sys2Proof

/-- The operand ranges of R54 and R57 on a decoded command. They hold of every term, since each operand has
exactly its field's width (`Sys2Proof.Laws.Decode`: `instr_wellFormed`). -/
def Instr.wellFormed : Instr → Bool
  | .minit seed => decide (seed.toNat < 2 ^ 32)
  | .mix => true
  | .mrnd0 => true
  | .mrnd1 => true
  | .mrnd2 => true
  | .addwA imm => decide (imm.toNat < 2 ^ 64)
  | .addwB imm => decide (imm.toNat < 2 ^ 64)
  | .addwC imm => decide (imm.toNat < 2 ^ 64)
  | .addlA k imm => decide (k.toNat ≤ 3) && decide (imm.toNat < 2 ^ 64)
  | .addlB k imm => decide (k.toNat ≤ 3) && decide (imm.toNat < 2 ^ 64)
  | .addlC k imm => decide (k.toNat ≤ 3) && decide (imm.toNat < 2 ^ 64)
  | .hinit => true
  | .habs e => decide (e.toNat < 2 ^ 64)
  | .hfin => true
  | .lrs n value => decide (n.toNat ≤ 255) && decide (value.toNat < 2 ^ 64)

/-- The register selector of ADDW.x, ADDL.x (10_state.md R21): `x[0]` A, `x[1]` B, `x[2]` C. There is no `x[3]`. -/
inductive XSel where
  /-- Selector 0. -/
  | A
  /-- Selector 1. -/
  | B
  /-- Selector 2. -/
  | C
  deriving DecidableEq, Repr

/-- The round number of MRND.i (R52). -/
inductive RoundNo where
  /-- Round 0. -/
  | r0
  /-- Round 1. -/
  | r1
  /-- Round 2. -/
  | r2
  deriving DecidableEq, Repr

/-- A line as it is written: the commands of R57 and the pseudo-instructions of R58, their operands still the
integers that stand in the text. -/
inductive Written where
  /-- `MINIT seed`. -/
  | minit (seed : Int)
  /-- `MIX`. -/
  | mix
  /-- `MRND.i`. -/
  | mrnd (i : RoundNo)
  /-- `ADDW.x imm`. -/
  | addw (x : XSel) (imm : Int)
  /-- `ADDL.x k, byte`. -/
  | addl (x : XSel) (k byte : Int)
  /-- `HINIT`. -/
  | hinit
  /-- `HABS e`. -/
  | habs (e : Int)
  /-- `HFIN`. -/
  | hfin
  /-- `LRS n, value`. -/
  | lrs (n value : Int)
  /-- `MBLK b0, …, b11` (R121). -/
  | mblk (bytes : List Int)
  /-- `MTAIL L; t0, …` (R122). -/
  | mtail (len : Int) (tail : List Int)
  /-- `MHASH seed, "bytes"` (R123). -/
  | mhash (seed : Int) (bytes : List Int)
  /-- `HSTR "bytes"` (R123). -/
  | hstr (bytes : List Int)
  deriving DecidableEq, Repr

/-- The range of a byte: 0 .. 255 (R111). -/
def inByte (v : Int) : Bool := decide (0 ≤ v ∧ v ≤ 255)

/-- The range of a seed: 0 .. 2^32-1 (R57). -/
def inSeed (v : Int) : Bool := decide (0 ≤ v ∧ v < 2 ^ 32)

/-- The range of `imm`, `e` and `value`: 0 .. 2^64-1, or a negative number in -2^63 .. -1 (R57). -/
def inSigned64 (v : Int) : Bool := decide (-2 ^ 63 ≤ v ∧ v < 2 ^ 64)

/-- The range of the `byte` operand of ADDL.x: above 255 it "can be encoded" and is accepted, negative it is
refused (R57). -/
def inUnsigned64 (v : Int) : Bool := decide (0 ≤ v ∧ v < 2 ^ 64)

/-- What an assembler accepts: each operand in its stated range (R57), twelve bytes for MBLK (R121),
`L ≥ 1` and `rem = L mod 12` for MTAIL (R122), a message that is not empty for MHASH (R123). -/
def Written.wellFormed : Written → Bool
  | .minit seed => inSeed seed
  | .mix => true
  | .mrnd _ => true
  | .addw _ imm => inSigned64 imm
  | .addl _ k byte => decide (0 ≤ k ∧ k ≤ 3) && inUnsigned64 byte
  | .hinit => true
  | .habs e => inSigned64 e
  | .hfin => true
  | .lrs n value => decide (0 ≤ n ∧ n ≤ 255) && inSigned64 value
  | .mblk bytes => decide (bytes.length = 12) && bytes.all inByte
  | .mtail len tail => decide (1 ≤ len ∧ len % 12 = tail.length) && tail.all inByte
  | .mhash seed bytes => inSeed seed && decide (bytes ≠ []) && bytes.all inByte
  | .hstr bytes => bytes.all inByte

end Sys2Proof
end

