-- ==== Sys2Proof/Decode.lean ====
section
/-! DEFINITION. The command encoding (30_encoding.md): the five formats and their masks (R51), the opcode map as
the table of fifteen rows the spec prints (R52), the decoder that compares the masked word with each row (R53),
and the encoder of a command. -/

namespace Sys2Proof

/-- The five formats of R51; they differ only in which bits must be zero. -/
inductive Format where
  /-- `f` and `d` must be 0. -/
  | Z
  /-- `f` and `d[63:32]` must be 0. -/
  | S
  /-- `f` must be 0. -/
  | W
  /-- `f[7:2]` must be 0. -/
  | L
  /-- No bit must be 0. -/
  | N
  deriving DecidableEq, Repr

/-- One row of the opcode map (R52): its opcode, its format, and the command its operand bits make (R54). -/
structure Row where
  /-- The value of `cmd[79:72]`. -/
  op : BitVec 8
  /-- The format, which gives the mask. -/
  format : Format
  /-- The command, its operands taken from the word. -/
  build : CmdWord → Instr

/-- `op = cmd[79:72]` (R50). -/
def opOf (w : CmdWord) : BitVec 8 := w.extractLsb' 72 8

/-- `f = cmd[71:64]` (R50). -/
def fOf (w : CmdWord) : Small := w.extractLsb' 64 8

/-- `d = cmd[63:0]` (R50). -/
def dOf (w : CmdWord) : Operand := w.extractLsb' 0 64

/-- `imm32 = d[31:0]` (R54). -/
def imm32Of (w : CmdWord) : Word := w.extractLsb' 0 32

/-- `k = f[1:0]` (R54). -/
def kOf (w : CmdWord) : Lane := w.extractLsb' 64 2

/-- The command word with the given fields: `op * 2^72 + f * 2^64 + d` (R50). -/
def fieldsWord (op : BitVec 8) (f : Small) (d : Operand) : CmdWord := op ++ f ++ d

/-- The mask of a format: which bits the decoder compares (R51). -/
def formatMask : Format → CmdWord
  | .Z => 0xFFFFFFFFFFFFFFFFFFFF#80
  | .S => 0xFFFFFFFFFFFF00000000#80
  | .W => 0xFFFF0000000000000000#80
  | .L => 0xFFFC0000000000000000#80
  | .N => 0xFF000000000000000000#80

/-- The opcode map (R52), in the order of the spec's table. -/
def opcodeTable : List Row :=
  [ ⟨0x01#8, .S, fun w => .minit (imm32Of w)⟩,
    ⟨0x04#8, .Z, fun _ => .mix⟩,
    ⟨0x08#8, .Z, fun _ => .mrnd0⟩,
    ⟨0x09#8, .Z, fun _ => .mrnd1⟩,
    ⟨0x0A#8, .Z, fun _ => .mrnd2⟩,
    ⟨0x10#8, .W, fun w => .addwA (dOf w)⟩,
    ⟨0x11#8, .W, fun w => .addwB (dOf w)⟩,
    ⟨0x12#8, .W, fun w => .addwC (dOf w)⟩,
    ⟨0x14#8, .L, fun w => .addlA (kOf w) (dOf w)⟩,
    ⟨0x15#8, .L, fun w => .addlB (kOf w) (dOf w)⟩,
    ⟨0x16#8, .L, fun w => .addlC (kOf w) (dOf w)⟩,
    ⟨0x20#8, .Z, fun _ => .hinit⟩,
    ⟨0x21#8, .W, fun w => .habs (dOf w)⟩,
    ⟨0x22#8, .Z, fun _ => .hfin⟩,
    ⟨0x40#8, .N, fun w => .lrs (fOf w) (dOf w)⟩ ]

/-- A row is the word's when the masked word equals the row's match value `op * 2^72` (R52, R53). -/
def rowMatches (w : CmdWord) (row : Row) : Bool :=
  decide (w &&& formatMask row.format = fieldsWord row.op 0 0)

/-- Decoding (R53): the row that matches, or IllegalCommand. Total on the 2^80 words. -/
def decode (w : CmdWord) : Except Exc Instr :=
  match opcodeTable.find? (rowMatches w) with
  | some row => .ok (row.build w)
  | none => .error .illegalCommand

/-- The encoder: the word of a command (R52, R54, R57), written from the table of R57. -/
def encode : Instr → CmdWord
  | .minit seed => fieldsWord 0x01#8 0 (seed.setWidth 64)
  | .mix => fieldsWord 0x04#8 0 0
  | .mrnd0 => fieldsWord 0x08#8 0 0
  | .mrnd1 => fieldsWord 0x09#8 0 0
  | .mrnd2 => fieldsWord 0x0A#8 0 0
  | .addwA imm => fieldsWord 0x10#8 0 imm
  | .addwB imm => fieldsWord 0x11#8 0 imm
  | .addwC imm => fieldsWord 0x12#8 0 imm
  | .addlA k imm => fieldsWord 0x14#8 (k.setWidth 8) imm
  | .addlB k imm => fieldsWord 0x15#8 (k.setWidth 8) imm
  | .addlC k imm => fieldsWord 0x16#8 (k.setWidth 8) imm
  | .hinit => fieldsWord 0x20#8 0 0
  | .habs e => fieldsWord 0x21#8 0 e
  | .hfin => fieldsWord 0x22#8 0 0
  | .lrs n value => fieldsWord 0x40#8 n value

/-- The command word an instruction of the opcode table is given as: `w` holds its `nbits` bits, bit 0 the least
significant (one word of 80 bits, R50); bits above `nbits` are 0. -/
def tableWord (nbits w : Nat) : CmdWord := BitVec.ofNat 80 (w % 2 ^ nbits)

/-- The instruction the decoder reads from a word numbered as the opcode table numbers it; `none` where the decoder
raises IllegalCommand, and for a length above the one length of a command (R50). -/
def decodeTableWord (nbits w : Nat) : Option Instr :=
  if nbits ≤ 80 then
    match decode (tableWord nbits w) with
    | .ok i => some i
    | .error _ => none
  else none

end Sys2Proof
end

