-- ==== Sys2Proof/Machine/State.lean ====
section
/-! DEFINITION. The state of JH32 (10_state.md R20, R23), the command port as the step reads it (R28), the reasons
a step could stop, and the state after reset (R29). -/

namespace Sys2Proof.Machine

/-- What the input pins hold at one rising edge of `clk` (R28). -/
structure Edge where
  /-- `rst`: synchronous reset, active high (70_reset_and_hazards.md R160). -/
  rst : BitVec 1
  /-- `cmd_valid`: the host offers a command at this edge. -/
  cmdValid : BitVec 1
  /-- `cmd`: the command word. -/
  cmd : CmdWord
  deriving DecidableEq, Repr

/-- The state of the block, and the host's side of the command port. -/
structure State where
  /-- Register A (R20). -/
  a : Word
  /-- Register B (R20). -/
  b : Word
  /-- Register C (R20). -/
  c : Word
  /-- Register H (R20). -/
  h : Word
  /-- Register R (R20). -/
  r : Word
  /-- ERR (R23): 0 running, 1 halted. -/
  err : BitVec 1
  /-- ECAUSE (R23): 0 none, 1 IllegalCommand, 2 InvalidInputEncoding; 3 is never produced. -/
  ecause : BitVec 2
  /-- The open parameter WIDE_ELEM, an argument of the model and no state of JH32 (R8, D14): no step writes it.
  DESIGN CHOICE (notes/assumptions/2.md). -/
  wideElem : WideElem
  /-- What the host will hold on the input pins at the coming rising edges, oldest first: the command list of R24.
  DESIGN CHOICE (notes/assumptions/3.md). -/
  port : List Edge
  /-- The MODEL's count of reset events, which numbers the draws of R29.
  DESIGN CHOICE (notes/assumptions/1.md). -/
  resets : Nat
  deriving DecidableEq, Repr

/-- Reasons a step stops with a fault: none. The faults of the spec (60_exceptions.md R143) are next states: fault
entry sets ERR and ECAUSE, and the halted block goes on accepting and discarding commands (R144, R169). Nobody
raises a `Fault`; that there is none is safe (notes/assumptions/4.md). -/
inductive Fault where
  deriving DecidableEq, Repr

/-- Reasons a step is refused. -/
inductive Refusal where
  /-- An instruction that has no meaning yet: raised by its arm of `exec` alone. Safe. No arm raises it now. -/
  | notModelled (mnemonic : String)
  deriving DecidableEq, Repr

/-- The machine right after reset (R29): ERR and ECAUSE are 0; A, B, C, H and R hold unspecified values, those of
reset event number 0; the host has offered nothing yet (notes/assumptions/3.md). -/
def State.reset : State where
  a := Config.resetValue 0 .A
  b := Config.resetValue 0 .B
  c := Config.resetValue 0 .C
  h := Config.resetValue 0 .H
  r := Config.resetValue 0 .R
  err := 0#1
  ecause := 0#2
  wideElem := Config.wideElem
  port := []
  resets := 1

end Sys2Proof.Machine
end

