-- ==== Sys2Proof/Machine/Flags.lean ====
section
/-! DEFINITION. JH32 has no flags, condition codes or predicates (10_state.md R25): no meaning computes one. What it
has is the fault latch, ERR and ECAUSE (R23), with the cause codes of 60_exceptions.md R140. The output ports
(R28) are here too: plain wires from the registers. -/

namespace Sys2Proof.Machine

/-- The code ECAUSE records for an exception (R140). -/
def excCode : Exc → BitVec 2
  | .illegalCommand => 1#2
  | .invalidInputEncoding => 2#2

/-- Halted: ERR = 1 (R14, R144). -/
def State.halted (s : State) : Bool := decide (s.err = 1#1)

/-- Port `a_q` (R28). -/
def State.aQ (s : State) : Word := s.a

/-- Port `b_q` (R28). -/
def State.bQ (s : State) : Word := s.b

/-- Port `c_q` (R28), where the MixHash digest stands after the final MIX (R30). -/
def State.cQ (s : State) : Word := s.c

/-- Port `h_q` (R28), where the OneAtATime digest stands after HFIN (R30). -/
def State.hQ (s : State) : Word := s.h

/-- Port `r_q` (R28), where the shift result stands after LRS (R30). -/
def State.rQ (s : State) : Word := s.r

/-- Port `err_q` (R28). -/
def State.errQ (s : State) : BitVec 1 := s.err

/-- Port `ecause_q` (R28). -/
def State.ecauseQ (s : State) : BitVec 2 := s.ecause

/-- Port `cmd_ready`: constant 1 (R28, 70_reset_and_hazards.md R169). -/
def State.cmdReady (_ : State) : BitVec 1 := 1#1

end Sys2Proof.Machine
end

