-- ==== Sys2Proof/Machine/Operands.lean ====
section
/-! DEFINITION. The fixed parameters (00_scope.md R7), the operand forms (30_encoding.md R54), the zero-padded right
shift (40_lrs.md R70) and the little-endian word (20_memory.md R42). -/

namespace Sys2Proof.Machine

/-- `GOLDEN`: the initial value of a and b (R7). -/
def golden : Word := 0x9e3779b9#32

/-- `BLOCK`: bytes per full MixHash block (R7). -/
def blockBytes : Nat := 12

/-- `MIXS` row 0: the shift amounts (S1, S2, S3) of round 0 (R7). -/
def mixShifts0 : Nat × Nat × Nat := (13, 8, 13)

/-- `MIXS` row 1: the shift amounts of round 1 (R7). -/
def mixShifts1 : Nat × Nat × Nat := (12, 16, 5)

/-- `MIXS` row 2: the shift amounts of round 2 (R7). -/
def mixShifts2 : Nat × Nat × Nat := (3, 10, 15)

/-- `OAAT_STEP`: left and right shift of the per-element step (R7). -/
def oaatStepShifts : Nat × Nat := (10, 6)

/-- `OAAT_FIN`: left, right, left shift of the final step (R7). -/
def oaatFinShifts : Nat × Nat × Nat := (3, 11, 15)

/-- `lrs(v, n) = floor((v mod 2^32) / 2^n)` (R70): first reduce to 32 bits, then shift with zeros entering at the top.
The value may have any width; a negative integer is given by its two's complement (R54; notes/assumptions/5.md). -/
def lrs {w : Nat} (v : BitVec w) (n : Nat) : Word := v.setWidth 32 >>> n

/-- `d mod 2^32 = d[31:0]`: how ADDW.x and HABS reduce their operand (R54, R85, R103). -/
def lowWord (d : Operand) : Word := d.setWidth 32

/-- The operand check of ADDL.x and HABS: `d` is a byte, 0 .. 255 (R88, R103, R142). -/
def isByte (d : Operand) : Bool := decide (d.toNat ≤ 255)

/-- The shift amount of lane `k`: `LANES[k] = 8 * k` (R7, R54). -/
def laneShift (k : Lane) : Nat := 8 * k.toNat

/-- What ADDL.x adds: `zext_32(d[7:0]) << (8 * k)` (R88). -/
def laneTerm (k : Lane) (d : Operand) : Word := ((d.setWidth 8).setWidth 32) <<< laneShift k

/-- A message byte as the operand of a command: `zext_64` of it (R111, R116). -/
def byteOperand (b : Byte) : Operand := b.setWidth 64

/-- `le32(b0, b1, b2, b3) = b0 + (b1 << 8) + (b2 << 16) + (b3 << 24)` (R42). -/
def le32 (b0 b1 b2 b3 : Byte) : Word :=
  b0.setWidth 32 + b1.setWidth 32 <<< 8 + b2.setWidth 32 <<< 16 + b3.setWidth 32 <<< 24

end Sys2Proof.Machine
end

