-- ==== Sys2Proof/Machine/Ops.lean ====
section
/-! DEFINITION. The named operations over the registers and the port: register access by selector (10_state.md R21),
the triple of the MIX unit, taking an exception (60_exceptions.md R143), the halt (R144), the reset event
(70_reset_and_hazards.md R161) and the handshake of the command port (10_state.md R28). JH32 has no memory
(20_memory.md R40) and no return from an exception (R147): the one way out of the halt is the reset event. -/

namespace Sys2Proof.Machine

/-- `x[i]` (R21). -/
def State.x (s : State) : XSel → Word
  | .A => s.a
  | .B => s.b
  | .C => s.c

/-- `x[i] <- v` (R21). -/
def State.setX (s : State) (i : XSel) (v : Word) : State :=
  match i with
  | .A => { s with a := v }
  | .B => { s with b := v }
  | .C => { s with c := v }

/-- The words a, b, c of the MIX unit (R20). -/
def State.triple (s : State) : Triple := ⟨s.a, s.b, s.c⟩

/-- `(A, B, C) <- t`: the three registers change together (20_memory.md R45). -/
def State.setTriple (s : State) (t : Triple) : State := { s with a := t.a, b := t.b, c := t.c }

/-- `H <- v` (R20). -/
def State.setH (s : State) (v : Word) : State := { s with h := v }

/-- `R <- v` (R20). -/
def State.setR (s : State) (v : Word) : State := { s with r := v }

/-- `raise X`: fault entry (R143). ERR becomes 1, ECAUSE the code of X; A, B, C, H and R keep their values. -/
def State.raise (s : State) (e : Exc) : State := { s with err := 1#1, ecause := excCode e }

/-- A command's step on a block that may be halted: while ERR = 1 the command is discarded and nothing changes
(R144); else the step completes in the state `t`. -/
def whenRunning (s t : State) : Host.Outcome State Fault Refusal :=
  if s.halted then .next s else .next t

/-- The reset event (R161, R29): ERR and ECAUSE become 0; A, B, C, H and R take unspecified values, drawn anew at
each event. What the host will offer later is not the block's to change. -/
def State.resetEvent (s : State) : State :=
  { s with
    a := Config.resetValue s.resets .A
    b := Config.resetValue s.resets .B
    c := Config.resetValue s.resets .C
    h := Config.resetValue s.resets .H
    r := Config.resetValue s.resets .R
    err := 0#1
    ecause := 0#2
    resets := s.resets + 1 }

/-- The edge is a reset event: `rst = 1`, whatever `cmd_valid` and `cmd` are (R160). -/
def Edge.isReset (e : Edge) : Bool := decide (e.rst = 1#1)

/-- A command is accepted at the edge: `rst = 0`, `cmd_valid = 1` and `cmd_ready = 1` (R28). -/
def acceptsAt (s : State) (e : Edge) : Bool :=
  decide (e.rst = 0#1) && decide (e.cmdValid = 1#1) && decide (s.cmdReady = 1#1)

/-- The pins when the host offers the command word `w`. -/
def Edge.command (w : CmdWord) : Edge := ⟨0#1, 1#1, w⟩

/-- The pins when the host offers nothing: how the host does nothing, since there is no NOP (30_encoding.md R55). -/
def Edge.idle : Edge := ⟨0#1, 0#1, 0#80⟩

/-- The pins under reset. -/
def Edge.reset : Edge := ⟨1#1, 0#1, 0#80⟩

/-- The state once the oldest edge of the port has been taken. -/
def State.withPort (s : State) (rest : List Edge) : State := { s with port := rest }

/-- The host's command words, one edge each, in order (R24). -/
def commandEdges (ws : List CmdWord) : List Edge := ws.map Edge.command

end Sys2Proof.Machine
end

