-- ==== Sys2Proof/Machine/Lrs.lean ====
section
/-! DEFINITION. The LRS unit (40_lrs.md). -/

namespace Sys2Proof.Machine

/-- LRS (R71): `R <- lrs(d, n)`. It reads no register and cannot fault. -/
def execLrs (n : Small) (value : Operand) (s : State) : Host.Outcome State Fault Refusal :=
  whenRunning s (s.setR (lrs value n.toNat))

end Sys2Proof.Machine
end

