-- ==== Sys2Proof/Machine/Mix.lean ====
section
/-! DEFINITION. The MIX unit (41_mix.md): the round and its inverse (R80, R83), the mixing step and its inverse
(R81, R83), and the meanings of MINIT, ADDW.x, ADDL.x, MRND.i and MIX. -/

namespace Sys2Proof.Machine

/-- `round(a, b, c, S1, S2, S3)` (R80): nine operations strictly in order, each on the values left by the ones
before it. -/
def mixRound (t : Triple) (shifts : Nat × Nat × Nat) : Triple :=
  let a := t.a - t.b
  let a := a - t.c
  let a := a ^^^ lrs t.c shifts.1
  let b := t.b - t.c
  let b := b - a
  let b := b ^^^ (a <<< shifts.2.1)
  let c := t.c - a
  let c := c - b
  let c := c ^^^ lrs b shifts.2.2
  ⟨a, b, c⟩

/-- `round_inv` (R83): the nine lines undone from the last to the first. For proofs; no command applies it. -/
def mixRoundInv (t : Triple) (shifts : Nat × Nat × Nat) : Triple :=
  let c := t.c ^^^ lrs t.b shifts.2.2
  let c := c + t.b
  let c := c + t.a
  let b := t.b ^^^ (t.a <<< shifts.2.1)
  let b := b + t.a
  let b := b + c
  let a := t.a ^^^ lrs c shifts.1
  let a := a + c
  let a := a + b
  ⟨a, b, c⟩

/-- `mix(a, b, c)` (R81): rounds 0, 1, 2 in that order. -/
def mixStep (t : Triple) : Triple :=
  mixRound (mixRound (mixRound t mixShifts0) mixShifts1) mixShifts2

/-- `mix_inv` (R83): the inverse rounds in the order 2, 1, 0. -/
def mixStepInv (t : Triple) : Triple :=
  mixRoundInv (mixRoundInv (mixRoundInv t mixShifts2) mixShifts1) mixShifts0

/-- The words MINIT leaves (R84). -/
def minitTriple (seed : Word) : Triple := ⟨golden, golden, seed⟩

/-- The add of ADDW.x: `x[i] <- x[i] + d[31:0]` (R85 to R87). -/
def State.addWord (s : State) (i : XSel) (d : Operand) : State := s.setX i (s.x i + lowWord d)

/-- The add of ADDL.x: InvalidInputEncoding when `d > 255`, else `x[i] <- x[i] + (zext_32(d[7:0]) << (8 * k))`
(R88 to R90). -/
def State.addLane (s : State) (i : XSel) (k : Lane) (d : Operand) : State :=
  if isByte d then s.setX i (s.x i + laneTerm k d) else s.raise .invalidInputEncoding

/-- MINIT (R84): `A, B <- 0x9e3779b9`, `C <- seed`. -/
def execMinit (seed : Word) (s : State) : Host.Outcome State Fault Refusal :=
  whenRunning s (s.setTriple (minitTriple seed))

/-- ADDW.A (R85). -/
def execAddwA (imm : Operand) (s : State) : Host.Outcome State Fault Refusal :=
  whenRunning s (s.addWord .A imm)

/-- ADDW.B (R86). -/
def execAddwB (imm : Operand) (s : State) : Host.Outcome State Fault Refusal :=
  whenRunning s (s.addWord .B imm)

/-- ADDW.C (R87). -/
def execAddwC (imm : Operand) (s : State) : Host.Outcome State Fault Refusal :=
  whenRunning s (s.addWord .C imm)

/-- ADDL.A (R88). -/
def execAddlA (k : Lane) (imm : Operand) (s : State) : Host.Outcome State Fault Refusal :=
  whenRunning s (s.addLane .A k imm)

/-- ADDL.B (R89). -/
def execAddlB (k : Lane) (imm : Operand) (s : State) : Host.Outcome State Fault Refusal :=
  whenRunning s (s.addLane .B k imm)

/-- ADDL.C (R90). -/
def execAddlC (k : Lane) (imm : Operand) (s : State) : Host.Outcome State Fault Refusal :=
  whenRunning s (s.addLane .C k imm)

/-- MRND.0 (R91). -/
def execMrnd0 (s : State) : Host.Outcome State Fault Refusal :=
  whenRunning s (s.setTriple (mixRound s.triple mixShifts0))

/-- MRND.1 (R92). -/
def execMrnd1 (s : State) : Host.Outcome State Fault Refusal :=
  whenRunning s (s.setTriple (mixRound s.triple mixShifts1))

/-- MRND.2 (R93). -/
def execMrnd2 (s : State) : Host.Outcome State Fault Refusal :=
  whenRunning s (s.setTriple (mixRound s.triple mixShifts2))

/-- MIX (R94). -/
def execMix (s : State) : Host.Outcome State Fault Refusal :=
  whenRunning s (s.setTriple (mixStep s.triple))

end Sys2Proof.Machine
end

