-- ==== Sys2Proof/Machine/Oaat.lean ====
section
/-! DEFINITION. The OAAT unit (42_oaat.md): the per-element step (R100), the final step (R101), and the meanings of
HINIT, HABS and HFIN. -/

namespace Sys2Proof.Machine

/-- `oaat_step(h, e)` (R100), the element already reduced modulo 2^32 by the wrapping add of its first line. -/
def oaatStep (h e : Word) : Word :=
  let h := h + e
  let h := h + (h <<< oaatStepShifts.1)
  h ^^^ lrs h oaatStepShifts.2

/-- `oaat_fin(h)` (R101). -/
def oaatFin (h : Word) : Word :=
  let h := h + (h <<< oaatFinShifts.1)
  let h := h ^^^ lrs h oaatFinShifts.2.1
  h + (h <<< oaatFinShifts.2.2)

/-- HABS's write: `H <- oaat_step(H, d)` (R103). -/
def State.absorb (s : State) (e : Operand) : State := s.setH (oaatStep s.h (lowWord e))

/-- HABS's check and write (R103). A byte is absorbed whatever WIDE_ELEM is; an element above 255 is absorbed whole
under `as_is` and raises InvalidInputEncoding under `reject` (R142). -/
def State.absorbElement (s : State) (e : Operand) : State :=
  if isByte e then s.absorb e
  else match s.wideElem with
    | .asIs => s.absorb e
    | .reject => s.raise .invalidInputEncoding

/-- HINIT (R102): `H <- 0`. -/
def execHinit (s : State) : Host.Outcome State Fault Refusal :=
  whenRunning s (s.setH 0#32)

/-- HABS (R103). -/
def execHabs (e : Operand) (s : State) : Host.Outcome State Fault Refusal :=
  whenRunning s (s.absorbElement e)

/-- HFIN (R104): `H <- oaat_fin(H)`. -/
def execHfin (s : State) : Host.Outcome State Fault Refusal :=
  whenRunning s (s.setH (oaatFin s.h))

end Sys2Proof.Machine
end

