-- ==== Sys2Proof/Machine/Dispatch.lean ====
section
/-! DEFINITION. The dispatch: one arm per command, each one call of the command's meaning. -/

namespace Sys2Proof.Machine

def exec (i : Instr) (s : State) : Host.Outcome State Fault Refusal :=
  match i with
  | .minit seed => Sys2Proof.Machine.execMinit seed s
  | .mix => Sys2Proof.Machine.execMix s
  | .mrnd0 => Sys2Proof.Machine.execMrnd0 s
  | .mrnd1 => Sys2Proof.Machine.execMrnd1 s
  | .mrnd2 => Sys2Proof.Machine.execMrnd2 s
  | .addwA imm => Sys2Proof.Machine.execAddwA imm s
  | .addwB imm => Sys2Proof.Machine.execAddwB imm s
  | .addwC imm => Sys2Proof.Machine.execAddwC imm s
  | .addlA k imm => Sys2Proof.Machine.execAddlA k imm s
  | .addlB k imm => Sys2Proof.Machine.execAddlB k imm s
  | .addlC k imm => Sys2Proof.Machine.execAddlC k imm s
  | .hinit => Sys2Proof.Machine.execHinit s
  | .habs e => Sys2Proof.Machine.execHabs e s
  | .hfin => Sys2Proof.Machine.execHfin s
  | .lrs n value => Sys2Proof.Machine.execLrs n value s

end Sys2Proof.Machine
end

