-- ==== Sys2Proof/Machine/Accept.lean ====
section
/-! DEFINITION. What one rising edge of `clk` does: an accepted command (30_encoding.md R53, 60_exceptions.md R143,
R144), the reset event (70_reset_and_hazards.md R160), or nothing (10_state.md R28). -/

namespace Sys2Proof.Machine

/-- An accepted command word. Halted, it is discarded without being decoded (R144). Running, the word is decoded; a
word that no row matches raises IllegalCommand (R53, R141), any other is executed whole (R27). -/
def acceptCommand (w : CmdWord) (s : State) : Host.Outcome State Fault Refusal :=
  if s.halted then .next s
  else match decode w with
    | .ok i => exec i s
    | .error e => .next (s.raise e)

/-- One rising edge: reset has priority over a command offered at the same edge (R160); an edge with `rst = 0` and
no command accepted changes no state (R28). -/
def risingEdge (e : Edge) (s : State) : Host.Outcome State Fault Refusal :=
  if e.isReset then .next s.resetEvent
  else if acceptsAt s e then acceptCommand e.cmd s
  else .next s

end Sys2Proof.Machine
end

