-- ==== Sys2Proof/Machine/Step.lean ====
section
/-! DEFINITION. One step of the machine: the next rising edge of `clk`, with the input pins the host holds at it
(10_state.md R27, R28). -/

namespace Sys2Proof.Machine

/-- One step: take the oldest edge of the port and let it happen. Where the host has nothing more to offer, the
edge is one with `rst = 0` and `cmd_valid = 0`, which changes no state (R28; notes/assumptions/3.md). -/
def step (s : State) : Host.Outcome State Fault Refusal :=
  match s.port with
  | [] => .next s
  | e :: rest => risingEdge e (s.withPort rest)

/-- The state whose next step accepts the command word `w` (numbered as the opcode table numbers it): the host
offers it at the next rising edge, before whatever it was going to offer (notes/assumptions/3.md). -/
def State.withFetchWord (s : State) (nbits w : Nat) : State :=
  { s with port := Edge.command (tableWord nbits w) :: s.port }

end Sys2Proof.Machine
end

