-- ==== Sys2Proof/Machine/Driver.lean ====
section
/-! DEFINITION. The host driver (43_host_sequences.md): for each message the exact list of commands a host issues
(R112 to R119), the pseudo-instructions' expansions (R121 to R123), and the two functions the sequences compute
(R118, R120). A message is a list of bytes (R111). The host is no agent of the machine (10_state.md R27): nothing
here is state of JH32. -/

namespace Sys2Proof.Machine

/-- `data[n]` (R12): byte n of a message. It is only read below the message's length. -/
def byteAt (data : List Byte) (n : Nat) : Byte := data.getD n 0

/-- `q = floor(L / 12)`: the number of full blocks (R114). -/
def fullBlocks (data : List Byte) : Nat := data.length / blockBytes

/-- The remaining bytes `t[0 .. rem-1]` (R116). -/
def tailBytes (data : List Byte) : List Byte := data.drop (blockBytes * fullBlocks data)

/-- `w(j, m)`: le32 of `data[12j+4m .. 12j+4m+3]` (R114, R118). -/
def blockWord (data : List Byte) (j m : Nat) : Word :=
  le32 (byteAt data (12 * j + 4 * m)) (byteAt data (12 * j + 4 * m + 1))
    (byteAt data (12 * j + 4 * m + 2)) (byteAt data (12 * j + 4 * m + 3))

/-- A word as the operand of ADDW.x. -/
def wordOperand (w : Word) : Operand := w.setWidth 64

/-- ADDW.x by its register selector (R52). -/
def addwInstr (i : XSel) (d : Operand) : Instr :=
  match i with
  | .A => .addwA d
  | .B => .addwB d
  | .C => .addwC d

/-- ADDL.x by its register selector (R52). -/
def addlInstr (i : XSel) (k : Lane) (d : Operand) : Instr :=
  match i with
  | .A => .addlA k d
  | .B => .addlB k d
  | .C => .addlC k d

/-- Absorb three words and mix: the four commands of one full block (R114). -/
def blockOfWords (w0 w1 w2 : Word) : List Instr :=
  [.addwA (wordOperand w0), .addwB (wordOperand w1), .addwC (wordOperand w2), .mix]

/-- The commands of full block `j` of a message (R114). -/
def blockCommands (data : List Byte) (j : Nat) : List Instr :=
  blockOfWords (blockWord data j 0) (blockWord data j 1) (blockWord data j 2)

/-- The threshold table (R116), from the top down: threshold, register, lane. The threshold is the byte's ordinal
counted from 1 (90_conflicts.md C2). -/
def tailTable : List (Nat × XSel × Lane) :=
  [(11, .C, 3#2), (10, .C, 2#2), (9, .C, 1#2),
   (8, .B, 3#2), (7, .B, 2#2), (6, .B, 1#2), (5, .B, 0#2),
   (4, .A, 3#2), (3, .A, 2#2), (2, .A, 1#2), (1, .A, 0#2)]

/-- The command of one row of the table: `t[threshold-1]` into the row's lane (R116). -/
def tailCommand (t : List Byte) (row : Nat × XSel × Lane) : Instr :=
  addlInstr row.2.1 row.2.2 (byteOperand (byteAt t (row.1 - 1)))

/-- The tail commands: a row's command if and only if `rem ≥ threshold` (R116). -/
def tailCommands (t : List Byte) : List Instr :=
  (tailTable.filter (fun row => decide (row.1 ≤ t.length))).map (tailCommand t)

/-- The length operand: `L mod 2^64` (R115). -/
def lengthOperand (len : Nat) : Operand := BitVec.ofNat 64 len

/-- `MBLK` (R121): the four commands of R114 for twelve bytes. -/
def mblk (bytes : List Byte) : List Instr := blockCommands bytes 0

/-- `MTAIL L; t0, …` (R122): the length add, the tail commands, and the final MIX (R115 to R117). -/
def mtail (len : Nat) (t : List Byte) : List Instr :=
  .addwC (lengthOperand len) :: (tailCommands t ++ [.mix])

/-- `MHASH seed, data` (R118), for a message that is not empty. -/
def mhash (seed : Word) (data : List Byte) : List Instr :=
  .minit seed :: ((List.range (fullBlocks data)).flatMap (blockCommands data) ++
    mtail data.length (tailBytes data))

/-- The seed the host uses when the caller gives none (R113). -/
def defaultSeed : Word := 0#32

/-- The seed of a call `mixhash(data, seed: uint32 = 0)`: the caller's, or the default where the caller gives none
(R113). -/
def seedOf (seed : Option Word) : Word := seed.getD defaultSeed

/-- The commands a host issues for a call of `mixhash`, with a seed or without one (R113): none for the empty message
(R112), else those of R118. -/
def mixhashCommands (data : List Byte) (seed : Option Word) : List Instr :=
  match data with
  | [] => []
  | b :: rest => mhash (seedOf seed) (b :: rest)

/-- The result the host gives: 0 for the empty message, by itself (R112), else the value of `c_q` (R117). -/
def mixhashResult (data : List Byte) (cq : Word) : Word :=
  match data with
  | [] => 0#32
  | _ :: _ => cq

/-- `HSTR`, and the commands a host issues for `ooat(data)` (R119, R123). -/
def ooatCommands (data : List Byte) : List Instr :=
  .hinit :: (data.map (fun e => Instr.habs (byteOperand e)) ++ [.hfin])

/-- The words a full block adds, and the mix: one turn of the loop of R118. -/
def absorbBlock (data : List Byte) (t : Triple) (j : Nat) : Triple :=
  mixStep ⟨t.a + blockWord data j 0, t.b + blockWord data j 1, t.c + blockWord data j 2⟩

/-- The final partial block (R118 with R116's closed form): `t[m] = 0` for `m ≥ rem`; c's bytes sit one lane higher. -/
def absorbTail (len : Nat) (tail : List Byte) (t : Triple) : Triple :=
  mixStep
    ⟨t.a + le32 (byteAt tail 0) (byteAt tail 1) (byteAt tail 2) (byteAt tail 3),
     t.b + le32 (byteAt tail 4) (byteAt tail 5) (byteAt tail 6) (byteAt tail 7),
     t.c + BitVec.ofNat 32 len + le32 0 (byteAt tail 8) (byteAt tail 9) (byteAt tail 10)⟩

/-- The triple after the final MIX of a message's sequence (R118). -/
def mixhashTriple (data : List Byte) (seed : Word) : Triple :=
  absorbTail data.length (tailBytes data)
    ((List.range (fullBlocks data)).foldl (absorbBlock data) (minitTriple seed))

/-- `mixhash(data, seed)` (R118): 0 for the empty message, else the c of the last mix. -/
def mixhash (data : List Byte) (seed : Word) : Word :=
  match data with
  | [] => 0#32
  | b :: rest => (mixhashTriple (b :: rest) seed).c

/-- `ooat(data)` (R120). -/
def ooat (data : List Byte) : Word :=
  oaatFin (data.foldl (fun h e => oaatStep h (e.setWidth 32)) 0#32)

end Sys2Proof.Machine
end

