-- ==== Sys2Proof/Machine/Assembler.lean ====
section
/-! DEFINITION. The assembler's text (30_encoding.md R57, R58): a line of characters is read as a written command, a
written command outside its stated ranges is refused, and an accepted one expands to a list of commands. What R57
does not fix of the text is notes/assumptions/7.md. -/

namespace Sys2Proof.Machine

/-- A message byte written as an integer. -/
def byteOfInt (v : Int) : Byte := BitVec.ofInt 8 v

/-- The commands a written line stands for (R57, R121 to R123). A negative `imm`, `e` or `value` v encodes as
`v + 2^64` (R57). -/
def expand : Written → List Instr
  | .minit seed => [.minit (BitVec.ofInt 32 seed)]
  | .mix => [.mix]
  | .mrnd .r0 => [.mrnd0]
  | .mrnd .r1 => [.mrnd1]
  | .mrnd .r2 => [.mrnd2]
  | .addw x imm => [addwInstr x (BitVec.ofInt 64 imm)]
  | .addl x k byte => [addlInstr x (BitVec.ofInt 2 k) (BitVec.ofInt 64 byte)]
  | .hinit => [.hinit]
  | .habs e => [.habs (BitVec.ofInt 64 e)]
  | .hfin => [.hfin]
  | .lrs n value => [.lrs (BitVec.ofInt 8 n) (BitVec.ofInt 64 value)]
  | .mblk bytes => mblk (bytes.map byteOfInt)
  | .mtail len tail => mtail len.toNat (tail.map byteOfInt)
  | .mhash seed bytes => mhash (BitVec.ofInt 32 seed) (bytes.map byteOfInt)
  | .hstr bytes => ooatCommands (bytes.map byteOfInt)

/-- The assembler on a written line: refused outside its ranges (R57), else its commands. -/
def assemble (x : Written) : Option (List Instr) :=
  if x.wellFormed then some (expand x) else none

/-- A token of a line. -/
inductive Token where
  /-- A mnemonic or a number. -/
  | atom (cs : List Char)
  /-- `,`. -/
  | comma
  /-- The `;` that stands between the length and the bytes of MTAIL (R58). -/
  | semi
  /-- A string, by its character codes. -/
  | str (codes : List Int)
  deriving DecidableEq, Repr

/-- The characters of a mnemonic or a number. -/
def atomChar (c : Char) : Bool := c.isAlphanum || c == '.' || c == '_' || c == '-'

/-- Emit the pending atom, if there is one. -/
def flush (pending : List Char) (out : List Token) : List Token :=
  match pending with
  | [] => out
  | c :: cs => .atom (c :: cs).reverse :: out

/-- The tokens so far (last first) are `MTAIL` and one atom: the next `;` separates, and starts no comment. -/
def afterMtailLength (out : List Token) : Bool :=
  match out with
  | [.atom _, .atom m] => m == ['M', 'T', 'A', 'I', 'L']
  | _ => false

/-- Cut a line into tokens (last first). `pending` is the atom being read, `inStr` the codes of the string being
read. A `;` outside a string starts a comment (R57). -/
def lexLine : List Char → List Char → Option (List Int) → List Token → Option (List Token)
  | [], pending, none, out => some (flush pending out)
  | [], _, some _, _ => none
  | c :: cs, _, some codes, out =>
    if c == '"' then lexLine cs [] none (.str codes.reverse :: out)
    else if c.toNat < 128 then lexLine cs [] (some ((c.toNat : Int) :: codes)) out
    else none
  | c :: cs, pending, none, out =>
    if atomChar c then lexLine cs (c :: pending) none out
    else if c == ' ' || c == '\t' || c == '\r' then lexLine cs [] none (flush pending out)
    else if c == ',' then lexLine cs [] none (.comma :: flush pending out)
    else if c == '"' then lexLine cs [] (some []) (flush pending out)
    else if c == ';' then
      if afterMtailLength (flush pending out) then lexLine cs [] none (.semi :: flush pending out)
      else some (flush pending out)
    else none

/-- The value of a digit in base 10 or 16. -/
def digitValue (base : Nat) (c : Char) : Option Nat :=
  let v :=
    if '0' ≤ c ∧ c ≤ '9' then c.toNat - 48
    else if 'a' ≤ c ∧ c ≤ 'f' then c.toNat - 87
    else if 'A' ≤ c ∧ c ≤ 'F' then c.toNat - 55
    else 99
  if v < base then some v else none

/-- Digits with optional `_` between them (R57): `afterDigit` says that the character before was a digit. -/
def parseDigits (base : Nat) : List Char → Bool → Nat → Option Nat
  | [], afterDigit, v => if afterDigit then some v else none
  | c :: cs, afterDigit, v =>
    if c == '_' then (if afterDigit then parseDigits base cs false v else none)
    else match digitValue base c with
      | some d => parseDigits base cs true (v * base + d)
      | none => none

/-- An unsigned number: `0x` hexadecimal, or decimal (R57). -/
def parseNat : List Char → Option Nat
  | '0' :: 'x' :: cs => parseDigits 16 cs false 0
  | cs => parseDigits 10 cs false 0

/-- A number, which may be negative (R57). -/
def parseInt : List Char → Option Int
  | '-' :: cs => (parseNat cs).map (fun v => -(v : Int))
  | cs => (parseNat cs).map (fun v => (v : Int))

/-- Numbers separated by commas. -/
def parseOperands : List Token → Option (List Int)
  | [] => some []
  | [.atom cs] => (parseInt cs).map (fun v => [v])
  | .atom cs :: .comma :: .atom cs' :: rest =>
    match parseInt cs, parseOperands (.atom cs' :: rest) with
    | some v, some vs => some (v :: vs)
    | _, _ => none
  | _ => none

/-- The operands of a mnemonic that takes only numbers, put into the written command (R57). -/
def writtenOf (mnemonic : List Char) (ops : List Int) : Option Written :=
  match mnemonic, ops with
  | ['M', 'I', 'N', 'I', 'T'], [seed] => some (.minit seed)
  | ['M', 'I', 'X'], [] => some .mix
  | ['M', 'R', 'N', 'D', '.', '0'], [] => some (.mrnd .r0)
  | ['M', 'R', 'N', 'D', '.', '1'], [] => some (.mrnd .r1)
  | ['M', 'R', 'N', 'D', '.', '2'], [] => some (.mrnd .r2)
  | ['A', 'D', 'D', 'W', '.', 'A'], [imm] => some (.addw .A imm)
  | ['A', 'D', 'D', 'W', '.', 'B'], [imm] => some (.addw .B imm)
  | ['A', 'D', 'D', 'W', '.', 'C'], [imm] => some (.addw .C imm)
  | ['A', 'D', 'D', 'L', '.', 'A'], [k, byte] => some (.addl .A k byte)
  | ['A', 'D', 'D', 'L', '.', 'B'], [k, byte] => some (.addl .B k byte)
  | ['A', 'D', 'D', 'L', '.', 'C'], [k, byte] => some (.addl .C k byte)
  | ['H', 'I', 'N', 'I', 'T'], [] => some .hinit
  | ['H', 'A', 'B', 'S'], [e] => some (.habs e)
  | ['H', 'F', 'I', 'N'], [] => some .hfin
  | ['L', 'R', 'S'], [n, value] => some (.lrs n value)
  | ['M', 'B', 'L', 'K'], bytes => some (.mblk bytes)
  | ['M', 'T', 'A', 'I', 'L'], [len] => some (.mtail len [])
  | _, _ => none

/-- A line's tokens as a written command; a blank line is none. -/
def parseTokens : List Token → Option (Option Written)
  | [] => some none
  | [.atom ['M', 'H', 'A', 'S', 'H'], .atom seed, .comma, .str codes] =>
    (parseInt seed).map (fun v => some (.mhash v codes))
  | [.atom ['H', 'S', 'T', 'R'], .str codes] => some (some (.hstr codes))
  | .atom ['M', 'T', 'A', 'I', 'L'] :: .atom len :: .semi :: rest =>
    match parseInt len, parseOperands rest with
    | some v, some tail => some (some (.mtail v tail))
    | _, _ => none
  | .atom m :: rest =>
    match parseOperands rest with
    | some ops => (writtenOf m ops).map some
    | none => none
  | _ => none

/-- One line of text as a written command (R57). -/
def parseLine (line : List Char) : Option (Option Written) :=
  match lexLine line [] none [] with
  | some tokens => parseTokens tokens.reverse
  | none => none

/-- One line of text as commands: none where the assembler refuses the line. -/
def assembleLine (line : List Char) : Option (List Instr) :=
  match parseLine line with
  | some (some x) => assemble x
  | some none => some []
  | none => none

/-- A text, one command per line (R57), as the command words it stands for, in order. -/
def assembleText : List (List Char) → Option (List CmdWord)
  | [] => some []
  | line :: lines =>
    match assembleLine line, assembleText lines with
    | some is, some ws => some (is.map encode ++ ws)
    | _, _ => none

end Sys2Proof.Machine
end

