-- ==== Sys2Proof/Safety.lean ====
section
/-! DEFINITION. What claims about JH32 count as safe: a running block (60_exceptions.md R144: a state with ERR = 1 is
faulted and never final), and the invariant of the status registers (10_state.md R23). -/

namespace Sys2Proof.Machine

/-- The block is running: ERR = 0. Only in such a state do the ports show a digest (70_reset_and_hazards.md R167). -/
abbrev State.Running (s : State) : Prop := s.err = 0#1

/-- The invariant of the status registers (R23): `ERR = 0` if and only if `ECAUSE = 0`, and ECAUSE is never 3. -/
abbrev State.StatusInv (s : State) : Prop := (s.err = 0#1 ↔ s.ecause = 0#2) ∧ s.ecause ≠ 3#2

/-- The three units (00_scope.md R2). -/
inductive Unit3 where
  /-- The MIX unit: A, B, C. -/
  | mix
  /-- The OAAT unit: H. -/
  | oaat
  /-- The LRS unit: R. -/
  | lrs
  deriving DecidableEq, Repr

/-- The unit of a command (30_encoding.md R52). -/
def unitOf : Instr → Unit3
  | .minit _ => .mix
  | .mix => .mix
  | .mrnd0 => .mix
  | .mrnd1 => .mix
  | .mrnd2 => .mix
  | .addwA _ => .mix
  | .addwB _ => .mix
  | .addwC _ => .mix
  | .addlA _ _ => .mix
  | .addlB _ _ => .mix
  | .addlC _ _ => .mix
  | .hinit => .oaat
  | .habs _ => .oaat
  | .hfin => .oaat
  | .lrs _ _ => .lrs

/-- Run a list of commands one after the other; the first one that stops, stops the list. -/
def execAll : List Instr → State → Host.Outcome State Fault Refusal
  | [], s => .next s
  | i :: is, s =>
    match exec i s with
    | .next t => execAll is t
    | .fault r => .fault r
    | .refused r => .refused r

end Sys2Proof.Machine
end

