-- ==== Sys2Proof/Certificates/Slice0/Obligations.lean ====
section
/-! DEFINITION. The statements about JH32, from the numbered rules of spec/. The first part says the spec's arithmetic
once more on natural numbers, as the rules write it, so that the statements do not lean on the model's own
functions. A register update in a statement (`{ s with h := v }`) says the frame as well: every field that it does
not name is unchanged, the data registers, ERR, ECAUSE, the port and the model's own fields among them. JH32 has no
memory (20_memory.md R40), so no statement speaks of one. -/

namespace Sys2Proof.Spec

/-- `x - y` modulo 2^32 (00_scope.md R9). -/
def sub (x y : Nat) : Nat := (x + (2 ^ 32 - y)) % 2 ^ 32

/-- `x + y` modulo 2^32 (R9). -/
def add (x y : Nat) : Nat := (x + y) % 2 ^ 32

/-- `x << s` (R9). -/
def shl (x s : Nat) : Nat := x * 2 ^ s % 2 ^ 32

/-- `lrs(v, n) = floor((v mod 2^32) / 2^n)` (40_lrs.md R70), on an integer of any sign. -/
def lrs (v : Int) (n : Nat) : Nat := (v % 2 ^ 32).toNat / 2 ^ n

/-- `round(a, b, c, S1, S2, S3)`, its nine lines in order (41_mix.md R80). -/
def round (t : Nat × Nat × Nat) (s1 s2 s3 : Nat) : Nat × Nat × Nat :=
  let (a, b, c) := t
  let a := sub a b
  let a := sub a c
  let a := a ^^^ (c / 2 ^ s1)
  let b := sub b c
  let b := sub b a
  let b := b ^^^ shl a s2
  let c := sub c a
  let c := sub c b
  let c := c ^^^ (b / 2 ^ s3)
  (a, b, c)

/-- `mix(a, b, c)` (R81). -/
def mix (t : Nat × Nat × Nat) : Nat × Nat × Nat :=
  round (round (round t 13 8 13) 12 16 5) 3 10 15

/-- `oaat_step(h, e)` (42_oaat.md R100), for any non-negative integer e. -/
def oaatStep (h e : Nat) : Nat :=
  let h := add h e
  let h := add h (shl h 10)
  h ^^^ (h / 2 ^ 6)

/-- `oaat_fin(h)` (R101). -/
def oaatFin (h : Nat) : Nat :=
  let h := add h (shl h 3)
  let h := h ^^^ (h / 2 ^ 11)
  add h (shl h 15)

/-- `data[n]` of a message, as a number (00_scope.md R12). Past the end it is 0, as R116's closed form says of `t[m]`
for `m ≥ rem`. -/
def byte (data : List Byte) (n : Nat) : Nat :=
  match data[n]? with
  | some b => b.toNat
  | none => 0

/-- The little-endian word that starts at `data[i]` (20_memory.md R42, 43_host_sequences.md R114). -/
def wordAt (data : List Byte) (i : Nat) : Nat :=
  byte data i + byte data (i + 1) * 2 ^ 8 + byte data (i + 2) * 2 ^ 16 + byte data (i + 3) * 2 ^ 24

/-- What the tail adds into c besides the length: `le32(0, t[8], t[9], t[10])` with `t[m] = data[i + m]` (R116). -/
def tailC (data : List Byte) (i : Nat) : Nat :=
  byte data (i + 8) * 2 ^ 8 + byte data (i + 9) * 2 ^ 16 + byte data (i + 10) * 2 ^ 24

/-- One full block: word m of block j is `data[12j+4m .. 12j+4m+3]` (R114, R118). -/
def absorbBlock (data : List Byte) (t : Nat × Nat × Nat) (j : Nat) : Nat × Nat × Nat :=
  mix (add t.1 (wordAt data (12 * j)), add t.2.1 (wordAt data (12 * j + 4)), add t.2.2 (wordAt data (12 * j + 8)))

/-- The triple after the full blocks of a message (R118). -/
def afterBlocks (data : List Byte) (seed : Nat) : Nat × Nat × Nat :=
  (List.range (data.length / 12)).foldl (absorbBlock data) (0x9e3779b9, 0x9e3779b9, seed)

/-- The triple after the final MIX (R118): the tail's byte t[m] is `data[12q + m]` (R116). -/
def mixhash (data : List Byte) (seed : Nat) : Nat × Nat × Nat :=
  let i := 12 * (data.length / 12)
  let t := afterBlocks data seed
  mix (add t.1 (wordAt data i), add t.2.1 (wordAt data (i + 4)), add (add t.2.2 data.length) (tailC data i))

/-- `ooat(data)` (R120). -/
def ooat (data : List Byte) : Nat :=
  oaatFin (data.foldl (fun h e => oaatStep h e.toNat) 0)

/-- A natural number as the operand `d`: its residue modulo 2^64 (R54, R115). -/
def operand (n : Nat) : Operand := BitVec.ofNat 64 n

/-- ADDW.x (30_encoding.md R57). -/
def addw (x : XSel) (d : Operand) : Instr :=
  match x with
  | .A => .addwA d
  | .B => .addwB d
  | .C => .addwC d

/-- ADDL.x (R57). -/
def addl (x : XSel) (k : Nat) (d : Operand) : Instr :=
  match x with
  | .A => .addlA (BitVec.ofNat 2 k) d
  | .B => .addlB (BitVec.ofNat 2 k) d
  | .C => .addlC (BitVec.ofNat 2 k) d

/-- The commands of the full block that starts at `data[i]` (R114, R121). -/
def blockList (data : List Byte) (i : Nat) : List Instr :=
  [.addwA (operand (wordAt data i)), .addwB (operand (wordAt data (i + 4))),
   .addwC (operand (wordAt data (i + 8))), .mix]

/-- The row of R116 with threshold m + 1, on the byte `t[m] = b`. -/
def tailRow (m b : Nat) : Instr :=
  if m < 4 then addl .A m (operand b)
  else if m < 8 then addl .B (m - 4) (operand b)
  else addl .C (m - 7) (operand b)

/-- The rows of R116 with threshold `rem` down to 1, on `t[m] = data[i + m]`. -/
def tailList (data : List Byte) (i rem : Nat) : List Instr :=
  (List.range rem).reverse.map (fun m => tailRow m (byte data (i + m)))

/-- `MHASH seed, data` (R118), line by line. -/
def mhashList (seed : Word) (data : List Byte) : List Instr :=
  [.minit seed] ++ (List.range (data.length / 12)).flatMap (fun j => blockList data (12 * j)) ++
    [.addwC (operand data.length)] ++ tailList data (12 * (data.length / 12)) (data.length % 12) ++ [.mix]

/-- `HSTR data` (R119). -/
def ooatList (data : List Byte) : List Instr :=
  [.hinit] ++ data.map (fun e => Instr.habs (operand e.toNat)) ++ [.hfin]

/-- The bytes of a message as an assembler's operands (R58). -/
def ints (data : List Byte) : List Int := data.map (fun b => (b.toNat : Int))

/-- The seed of a call: 0 where the caller gives none (43_host_sequences.md R113). -/
def seed (given : Option Word) : Word :=
  match given with
  | some w => w
  | none => 0#32

/-- A natural number as a word. -/
def word (n : Nat) : Word := BitVec.ofNat 32 n

/-- The words of A, B and C as numbers. -/
def nums (s : Machine.State) : Nat × Nat × Nat := (s.a.toNat, s.b.toNat, s.c.toNat)

/-- The state with A, B and C replaced by three numbers. -/
def withTriple (s : Machine.State) (t : Nat × Nat × Nat) : Machine.State :=
  { s with a := word t.1, b := word t.2.1, c := word t.2.2 }

/-- Fault entry with a cause code (60_exceptions.md R143). -/
def faulted (s : Machine.State) (code : BitVec 2) : Machine.State := { s with err := 1#1, ecause := code }

/-- The block runs, and the host offers the word `op f d` (30_encoding.md R50) at the next rising edge. -/
def Offered (s : Machine.State) (op : BitVec 8) (f : Small) (d : Operand) (rest : List Machine.Edge) : Prop :=
  s.err = 0#1 ∧ s.port = Machine.Edge.command (op ++ f ++ d) :: rest

/-- The state with the offered word taken. -/
def taken (s : Machine.State) (rest : List Machine.Edge) : Machine.State := { s with port := rest }

/-- The fifteen assigned opcodes (R52). -/
def assigned : List Nat := [0x01, 0x04, 0x08, 0x09, 0x0A, 0x10, 0x11, 0x12, 0x14, 0x15, 0x16, 0x20, 0x21, 0x22, 0x40]

/-- The illegal words as R55 lists them: (a) an opcode other than the fifteen; (b) a listed opcode with a must-be-zero
bit set: any of `f` or `d` in format Z, `f` or `d[63:32]` in format S, `f` in format W, `f[7:2]` in format L. -/
def Illegal (w : CmdWord) : Prop :=
  let op := w.toNat / 2 ^ 72
  let f := w.toNat / 2 ^ 64 % 2 ^ 8
  let d := w.toNat % 2 ^ 64
  op ∉ assigned ∨
    (op ∈ [0x04, 0x08, 0x09, 0x0A, 0x20, 0x22] ∧ (f ≠ 0 ∨ d ≠ 0)) ∨
    (op = 0x01 ∧ (f ≠ 0 ∨ d / 2 ^ 32 ≠ 0)) ∨
    (op ∈ [0x10, 0x11, 0x12, 0x21] ∧ f ≠ 0) ∨
    (op ∈ [0x14, 0x15, 0x16] ∧ f / 4 ≠ 0)

/-- The command raises InvalidInputEncoding (60_exceptions.md R142). -/
def InvalidInput (w : WideElem) : Instr → Prop
  | .addlA _ d => 255 < d.toNat
  | .addlB _ d => 255 < d.toNat
  | .addlC _ d => 255 < d.toNat
  | .habs d => 255 < d.toNat ∧ w = .reject
  | _ => False

/-- An ADDW.x or ADDL.x that does not fault (41_mix.md R95). -/
def IsAdd : Instr → Prop
  | .addwA _ => True
  | .addwB _ => True
  | .addwC _ => True
  | .addlA _ d => d.toNat ≤ 255
  | .addlB _ d => d.toNat ≤ 255
  | .addlC _ d => d.toNat ≤ 255
  | _ => False

/-- Two commands one after the other, from a state. -/
def pair (i j : Instr) (s : Machine.State) : Host.Outcome Machine.State Machine.Fault Machine.Refusal :=
  Machine.execAll [i, j] s

end Sys2Proof.Spec

open Sys2Proof Sys2Proof.Machine

/-! ## Reset, the port and the step -/

/-- R29, its rows ERR and ECAUSE. -/
def Obligations.ResetStateIsNotHalted : Prop :=
  State.reset.err = 0#1 ∧ State.reset.ecause = 0#2

/-- R160: the reset event happens whatever `cmd_valid` and `cmd` are, in any state, and it is the only way out of the
halted state. That it leaves ERR and ECAUSE at 0 is R161 and R29; that it takes its own edge from the port and leaves
the later ones is the MODEL's choice (notes/assumptions/3.md). -/
def Obligations.ResetHasPriorityAndAloneLeavesHalt : Prop :=
  (∀ (s : State) (rest : List Edge), ∃ t : State,
    (∀ (v : BitVec 1) (w : CmdWord), step { s with port := ⟨1#1, v, w⟩ :: rest } = .next t) ∧
    t.err = 0#1 ∧ t.ecause = 0#2 ∧ t.port = rest) ∧
  (∀ s t : State, s.err = 1#1 → step s = .next t → t.err = 0#1 →
    ∃ (e : Edge) (rest : List Edge), s.port = e :: rest ∧ e.rst = 1#1)

/-- R161 with the MODEL's choice of notes/assumptions/1.md: the value each data register takes is the draw numbered by
the count of reset events, about which nothing is known. -/
def Obligations.ResetEventReplacesAllState : Prop :=
  ∀ (s : State) (e : Edge) (rest : List Edge), s.port = e :: rest → e.rst = 1#1 →
    step s = .next
      { a := Config.resetValue s.resets .A
        b := Config.resetValue s.resets .B
        c := Config.resetValue s.resets .C
        h := Config.resetValue s.resets .H
        r := Config.resetValue s.resets .R
        err := 0#1
        ecause := 0#2
        wideElem := s.wideElem
        port := rest
        resets := s.resets + 1 }

/-- R28: "A rising edge with `rst = 0` and `cmd_valid = 0` changes no state." The list of the host's inputs is the
MODEL's form (notes/assumptions/3.md). -/
def Obligations.EdgeWithoutCommandChangesNothing : Prop :=
  ∀ (s : State) (e : Edge) (rest : List Edge), s.port = e :: rest → e.rst = 0#1 → e.cmdValid = 0#1 →
    step s = .next { s with port := rest }

/-- R169: `cmd_ready` is constant 1, an offered command is accepted unless `rst = 1`, every step terminates, and a
finite command list runs to its end, halted or not. That a step with nothing left at the port is an idle edge is the
MODEL's choice (notes/assumptions/3.md). -/
def Obligations.EveryStepTerminates : Prop :=
  ∀ s : State, s.cmdReady = 1#1 ∧
    (∀ e : Edge, e.cmdValid = 1#1 → (acceptsAt s e = true ↔ e.rst ≠ 1#1)) ∧
    (∃ t, step s = .next t) ∧
    (∀ n : Nat, ∃ t, Host.Core.run Sys2Proof.core n s = .next t) ∧
    (∀ (ws : List CmdWord) (rest : List Edge), s.port = commandEdges ws ++ rest →
      ∃ t : State, Host.Core.run Sys2Proof.core ws.length s = .next t ∧ t.port = rest)

/-- A step runs the decoded command: where the word offered at the next edge decodes to `i`, the step is `exec i` on
the state with that edge taken. No premise on ERR: that exec does nothing while ERR = 1 is the MODEL's guard
(notes/assumptions/4.md). -/
def Obligations.StepExecutesDecodedCommand : Prop :=
  ∀ (s : State) (e : Edge) (rest : List Edge) (i : Instr),
    s.port = e :: rest → e.rst = 0#1 → e.cmdValid = 1#1 → decode e.cmd = .ok i →
    step s = exec i { s with port := rest }

/-- R144: while ERR = 1 every accepted command word is discarded without being decoded, `cmd_ready` stays 1, no command
clears ERR, and the block stays halted until reset. The clause on exec rests on the MODEL's guard
(notes/assumptions/4.md), the one on steps past the last offered edge on notes/assumptions/3.md. -/
def Obligations.HaltedBlockDiscardsCommands : Prop :=
  ∀ s : State, s.err = 1#1 →
    s.cmdReady = 1#1 ∧
    (∀ i : Instr, exec i s = .next s) ∧
    (∀ (w : CmdWord) (rest : List Edge), s.port = Edge.command w :: rest → step s = .next { s with port := rest }) ∧
    (∀ (n : Nat) (t : State), (∀ e ∈ s.port, e.rst = 0#1) → Host.Core.run Sys2Proof.core n s = .next t →
      t = { s with port := s.port.drop n })

/-- R23: `ERR = 0` if and only if `ECAUSE = 0`, and ECAUSE is never 3. Every step keeps it, from any state. -/
def Obligations.StatusInvariantIsKept : Prop :=
  ∀ s t : State, s.StatusInv → step s = .next t → t.StatusInv

/-- The invariant of R23 holds right after reset. -/
def Obligations.ResetMeetsStatusInvariant : Prop :=
  State.reset.StatusInv

/-- R28, R30: the output ports show the registers. -/
def Obligations.OutputPortsShowRegisters : Prop :=
  ∀ s : State, s.aQ = s.a ∧ s.bQ = s.b ∧ s.cQ = s.c ∧ s.hQ = s.h ∧ s.rQ = s.r ∧ s.errQ = s.err ∧
    s.ecauseQ = s.ecause ∧ s.cmdReady = 1#1

/-! ## Encoding -/

/-- R50: `cmd = op * 2^72 + f * 2^64 + d`, and the three fields are read back. -/
def Obligations.CommandWordIsItsFields : Prop :=
  ∀ (op : BitVec 8) (f : Small) (d : Operand),
    (fieldsWord op f d).toNat = op.toNat * 2 ^ 72 + f.toNat * 2 ^ 64 + d.toNat ∧
    opOf (fieldsWord op f d) = op ∧ fOf (fieldsWord op f d) = f ∧ dOf (fieldsWord op f d) = d

/-- R53: the decoder gives the one row that matches, at most one can, and IllegalCommand where none does; while ERR = 1
there is no decoding. -/
def Obligations.DecoderTakesTheOneMatchingRow : Prop :=
  ∀ w : CmdWord,
    (∀ row ∈ opcodeTable, w &&& formatMask row.format = fieldsWord row.op 0 0 → decode w = .ok (row.build w)) ∧
    (∀ row ∈ opcodeTable, ∀ row' ∈ opcodeTable,
      w &&& formatMask row.format = fieldsWord row.op 0 0 →
      w &&& formatMask row'.format = fieldsWord row'.op 0 0 → row = row') ∧
    ((∀ row ∈ opcodeTable, w &&& formatMask row.format ≠ fieldsWord row.op 0 0) →
      decode w = .error .illegalCommand) ∧
    (∀ s : State, s.err = 1#1 → acceptCommand w s = .next s)

/-- R141 with the set of R55: IllegalCommand is raised by exactly the illegal words, from the word alone. -/
def Obligations.IllegalCommandExactlyOnIllegalWords : Prop :=
  (∀ w : CmdWord, decode w = .error .illegalCommand ↔ Spec.Illegal w) ∧
  (∀ (s : State) (w : CmdWord) (rest : List Edge), s.err = 0#1 → s.port = Edge.command w :: rest →
    (Spec.Illegal w ↔ step s = .next (Spec.faulted { s with port := rest } 1#2))) ∧
  (∀ w : CmdWord, w.toNat / 2 ^ 72 = 0x40 → ¬ Spec.Illegal w)

/-- Decode and encode agree: every command, with every operand at every value, comes back from its word. -/
def Obligations.DecodeOfEncodeIsIdentity : Prop :=
  ∀ i : Instr, decode (encode i) = .ok i

/-- No bit of a legal word is dropped: a word that decodes is the word of the command it decodes to. -/
def Obligations.EncodeOfDecodeIsIdentity : Prop :=
  ∀ (w : CmdWord) (i : Instr), decode w = .ok i → encode i = w

/-- R59, the worked encodings. -/
def Obligations.WorkedEncodingsDecode : Prop :=
  decode 0x01000000000000000000#80 = .ok (.minit 0) ∧
  decode 0x010000000000DEADBEEF#80 = .ok (.minit 0xDEADBEEF#32) ∧
  decode 0x04000000000000000000#80 = .ok .mix ∧
  decode 0x0A000000000000000000#80 = .ok .mrnd2 ∧
  decode 0x12000000000000000006#80 = .ok (.addwC 6) ∧
  decode 0x100000000000626F6F66#80 = .ok (.addwA 0x626F6F66#64) ∧
  decode 0x15010000000000000072#80 = .ok (.addlB 1 0x72) ∧
  decode 0x16030000000000000064#80 = .ok (.addlC 3 0x64) ∧
  decode 0x20000000000000000000#80 = .ok .hinit ∧
  decode 0x21000000000000000066#80 = .ok (.habs 0x66) ∧
  decode 0x22000000000000000000#80 = .ok .hfin ∧
  decode 0x400D0000000180000000#80 = .ok (.lrs 13 0x180000000#64) ∧
  decode 0x00000000000000000000#80 = .error .illegalCommand ∧
  decode 0x04000000000000000001#80 = .error .illegalCommand ∧
  decode 0x01000000000100000000#80 = .error .illegalCommand ∧
  decode 0x14040000000000000041#80 = .error .illegalCommand

/-! ## The MIX unit -/

/-- R84: `A, B <- 0x9e3779b9`, `C <- seed`, for every seed; nothing else changes. -/
def Obligations.MinitStartsContext : Prop :=
  ∀ (s : State) (seed : Word), s.err = 0#1 →
    exec (.minit seed) s = .next { s with a := 0x9e3779b9#32, b := 0x9e3779b9#32, c := seed }

/-- R85 to R87: `x[i] <- (x[i] + d) mod 2^32`; nothing else changes. -/
def Obligations.AddwAddsModulo : Prop :=
  ∀ (s : State) (d : Operand), s.err = 0#1 →
    exec (.addwA d) s = .next { s with a := Spec.word (Spec.add s.a.toNat d.toNat) } ∧
    exec (.addwB d) s = .next { s with b := Spec.word (Spec.add s.b.toNat d.toNat) } ∧
    exec (.addwC d) s = .next { s with c := Spec.word (Spec.add s.c.toNat d.toNat) }

/-- R88 to R90, a byte operand: `x[i] <- x[i] + (byte << 8k)`, wrapping; nothing else changes. -/
def Obligations.AddlAddsByteIntoLane : Prop :=
  ∀ (s : State) (k : Lane) (d : Operand), s.err = 0#1 → d.toNat ≤ 255 →
    exec (.addlA k d) s = .next { s with a := Spec.word (Spec.add s.a.toNat (d.toNat * 2 ^ (8 * k.toNat))) } ∧
    exec (.addlB k d) s = .next { s with b := Spec.word (Spec.add s.b.toNat (d.toNat * 2 ^ (8 * k.toNat))) } ∧
    exec (.addlC k d) s = .next { s with c := Spec.word (Spec.add s.c.toNat (d.toNat * 2 ^ (8 * k.toNat))) }

/-- R88 to R90, an operand above 255: InvalidInputEncoding, the register unchanged. Where the form TRAPS. -/
def Obligations.AddlTrapsOnNonByte : Prop :=
  ∀ (s : State) (k : Lane) (d : Operand), s.err = 0#1 → 255 < d.toNat →
    exec (.addlA k d) s = .next (Spec.faulted s 2#2) ∧
    exec (.addlB k d) s = .next (Spec.faulted s 2#2) ∧
    exec (.addlC k d) s = .next (Spec.faulted s 2#2)

/-- R91 to R93 with R80: each MRND.i is the round of its triple, its nine lines in order. -/
def Obligations.MrndAppliesItsRound : Prop :=
  ∀ s : State, s.err = 0#1 →
    exec .mrnd0 s = .next (Spec.withTriple s (Spec.round (Spec.nums s) 13 8 13)) ∧
    exec .mrnd1 s = .next (Spec.withTriple s (Spec.round (Spec.nums s) 12 16 5)) ∧
    exec .mrnd2 s = .next (Spec.withTriple s (Spec.round (Spec.nums s) 3 10 15))

/-- R94 with R81: MIX is the three rounds in order. -/
def Obligations.MixAppliesThreeRounds : Prop :=
  ∀ s : State, s.err = 0#1 → exec .mix s = .next (Spec.withTriple s (Spec.mix (Spec.nums s)))

/-- R94: "`MIX` has the effect of `MRND.0; MRND.1; MRND.2`", from every state. -/
def Obligations.MixEqualsThreeRoundCommands : Prop :=
  ∀ s : State, exec .mix s = execAll [.mrnd0, .mrnd1, .mrnd2] s

/-- R82: `mix(0, 0, 0) = (0, 0, 0)`. -/
def Obligations.MixFixesTheZeroTriple : Prop :=
  ∀ s : State, s.a = 0#32 → s.b = 0#32 → s.c = 0#32 → exec .mix s = .next s

/-- R83: a round is a bijection, with the inverse the rule gives, for every three shift amounts; so is the mixing
step. -/
def Obligations.RoundsAndMixAreBijections : Prop :=
  (∀ (t : Triple) (shifts : Nat × Nat × Nat), mixRoundInv (mixRound t shifts) shifts = t) ∧
  (∀ (t : Triple) (shifts : Nat × Nat × Nat), mixRound (mixRoundInv t shifts) shifts = t) ∧
  (∀ t : Triple, mixStepInv (mixStep t) = t) ∧ (∀ t : Triple, mixStep (mixStepInv t) = t)

/-- R95: two adds, on the same or different registers, neither of which faults, may be exchanged. -/
def Obligations.AddsCommute : Prop :=
  ∀ (s : State) (i j : Instr), Spec.IsAdd i → Spec.IsAdd j → Spec.pair i j s = Spec.pair j i s

/-- R95, R88: adds into one register merge into one ADDW.x of the sum, and a lane add is the word add of the shifted
byte. -/
def Obligations.AddsMerge : Prop :=
  ∀ (s : State) (x : XSel) (d e : Operand) (k : Lane),
    Spec.pair (addwInstr x d) (addwInstr x e) s = exec (addwInstr x (d + e)) s ∧
    (d.toNat ≤ 255 → exec (addlInstr x k d) s = exec (addwInstr x (d <<< (8 * k.toNat))) s)

/-- R95, R42: `ADDW.x le32(b0, b1, b2, b3)` has the effect of the four lane adds. -/
def Obligations.WordAddEqualsFourLaneAdds : Prop :=
  ∀ (s : State) (x : XSel) (b0 b1 b2 b3 : Byte),
    execAll [addlInstr x 0 (byteOperand b0), addlInstr x 1 (byteOperand b1), addlInstr x 2 (byteOperand b2),
      addlInstr x 3 (byteOperand b3)] s = exec (addwInstr x (wordOperand (le32 b0 b1 b2 b3))) s

/-- R42: `le32` is the sum of the bytes in their lanes, without carries the concatenation. -/
def Obligations.LittleEndianWord : Prop :=
  ∀ b0 b1 b2 b3 : Byte,
    (le32 b0 b1 b2 b3).toNat = b0.toNat + b1.toNat * 2 ^ 8 + b2.toNat * 2 ^ 16 + b3.toNat * 2 ^ 24 ∧
    le32 b0 b1 b2 b3 = b3 ++ b2 ++ b1 ++ b0

/-! ## The OAAT unit -/

/-- R102: `H <- 0`; nothing else changes. -/
def Obligations.HinitClearsH : Prop :=
  ∀ s : State, s.err = 0#1 → exec .hinit s = .next { s with h := 0#32 }

/-- R103 with R100, a byte: `H <- oaat_step(H, d)`, whatever WIDE_ELEM is; nothing else changes. -/
def Obligations.HabsAbsorbsByte : Prop :=
  ∀ (s : State) (d : Operand), s.err = 0#1 → d.toNat ≤ 255 →
    exec (.habs d) s = .next { s with h := Spec.word (Spec.oaatStep s.h.toNat d.toNat) }

/-- R103, `as_is`: the element is added whole, without masking, and the add wraps. That the parameter is a
field of State is the MODEL's choice (notes/assumptions/2.md). -/
def Obligations.HabsAsIsAbsorbsWideElement : Prop :=
  ∀ (s : State) (d : Operand), s.err = 0#1 → s.wideElem = .asIs → 255 < d.toNat →
    exec (.habs d) s = .next { s with h := Spec.word (Spec.oaatStep s.h.toNat d.toNat) }

/-- R103, `reject`: the command faults and H is unchanged. Where the form TRAPS. -/
def Obligations.HabsRejectTrapsOnWideElement : Prop :=
  ∀ (s : State) (d : Operand), s.err = 0#1 → s.wideElem = .reject → 255 < d.toNat →
    exec (.habs d) s = .next (Spec.faulted s 2#2)

/-- R104 with R101: `H <- oaat_fin(H)`; nothing else changes. -/
def Obligations.HfinFinishes : Prop :=
  ∀ s : State, s.err = 0#1 → exec .hfin s = .next { s with h := Spec.word (Spec.oaatFin s.h.toNat) }

/-- R105 for the empty message, and for the others the corner case that R103 derives from R100 and R101: a message of
only zero bytes, of any length, has the digest 0. The sequence is R119's. -/
def Obligations.ZeroBytesHaveDigestZero : Prop :=
  ∀ (s : State) (n : Nat), s.err = 0#1 →
    execAll (ooatCommands (List.replicate n 0#8)) s = .next { s with h := 0#32 }

/-! ## The LRS unit -/

/-- R71 with R70: for an integer value of 64 bits, signed or unsigned, and every n, `R <- lrs(value, n)`; nothing else
changes. -/
def Obligations.LrsShiftsTheReducedValue : Prop :=
  ∀ (s : State) (v : Int) (n : Small), s.err = 0#1 →
    exec (.lrs n (BitVec.ofInt 64 v)) s = .next { s with r := Spec.word (Spec.lrs v n.toNat) }

/-- R72: shift by 0, by 31, by 32 and more; bits 32 and above of the value never matter. -/
def Obligations.LrsCornerCases : Prop :=
  ∀ (s : State) (v w : Operand) (n : Small), s.err = 0#1 →
    exec (.lrs 0 v) s = .next { s with r := v.setWidth 32 } ∧
    exec (.lrs 31 v) s = .next { s with r := if v.getLsbD 31 then 1#32 else 0#32 } ∧
    (32 ≤ n.toNat → exec (.lrs n v) s = .next { s with r := 0#32 }) ∧
    (v.toNat % 2 ^ 32 = w.toNat % 2 ^ 32 → exec (.lrs n v) s = exec (.lrs n w) s) ∧
    (n.toNat ≤ 32 → ∃ t, exec (.lrs n v) s = .next t ∧ t.r.toNat ≤ 2 ^ (32 - n.toNat) - 1)

/-! ## Whole words at the port: each command with its encoding and its faults -/

/-- R84: MINIT's word, legal or refused. -/
def Obligations.MinitWordAtThePort : Prop :=
  ∀ (s : State) (f : Small) (d : Operand) (rest : List Edge), Spec.Offered s 0x01#8 f d rest →
    step s = .next
      (if f.toNat = 0 ∧ d.toNat / 2 ^ 32 = 0 then
        { s with port := rest, a := 0x9e3779b9#32, b := 0x9e3779b9#32, c := d.setWidth 32 }
       else Spec.faulted (Spec.taken s rest) 1#2)

/-- R85 to R87: the words of ADDW.x. -/
def Obligations.AddwWordsAtThePort : Prop :=
  ∀ (s : State) (f : Small) (d : Operand) (rest : List Edge),
    (Spec.Offered s 0x10#8 f d rest → step s = .next
      (if f.toNat = 0 then { s with port := rest, a := Spec.word (Spec.add s.a.toNat d.toNat) }
       else Spec.faulted (Spec.taken s rest) 1#2)) ∧
    (Spec.Offered s 0x11#8 f d rest → step s = .next
      (if f.toNat = 0 then { s with port := rest, b := Spec.word (Spec.add s.b.toNat d.toNat) }
       else Spec.faulted (Spec.taken s rest) 1#2)) ∧
    (Spec.Offered s 0x12#8 f d rest → step s = .next
      (if f.toNat = 0 then { s with port := rest, c := Spec.word (Spec.add s.c.toNat d.toNat) }
       else Spec.faulted (Spec.taken s rest) 1#2))

/-- R88 to R90 and R145: the words of ADDL.x; the decode fault comes before the operand check. -/
def Obligations.AddlWordsAtThePort : Prop :=
  ∀ (s : State) (f : Small) (d : Operand) (rest : List Edge),
    (Spec.Offered s 0x14#8 f d rest → step s = .next
      (if 4 ≤ f.toNat then Spec.faulted (Spec.taken s rest) 1#2
       else if 255 < d.toNat then Spec.faulted (Spec.taken s rest) 2#2
       else { s with port := rest, a := Spec.word (Spec.add s.a.toNat (d.toNat * 2 ^ (8 * f.toNat))) })) ∧
    (Spec.Offered s 0x15#8 f d rest → step s = .next
      (if 4 ≤ f.toNat then Spec.faulted (Spec.taken s rest) 1#2
       else if 255 < d.toNat then Spec.faulted (Spec.taken s rest) 2#2
       else { s with port := rest, b := Spec.word (Spec.add s.b.toNat (d.toNat * 2 ^ (8 * f.toNat))) })) ∧
    (Spec.Offered s 0x16#8 f d rest → step s = .next
      (if 4 ≤ f.toNat then Spec.faulted (Spec.taken s rest) 1#2
       else if 255 < d.toNat then Spec.faulted (Spec.taken s rest) 2#2
       else { s with port := rest, c := Spec.word (Spec.add s.c.toNat (d.toNat * 2 ^ (8 * f.toNat))) }))

/-- R91 to R94: the words of MRND.i and MIX. -/
def Obligations.MixRoundWordsAtThePort : Prop :=
  ∀ (s : State) (f : Small) (d : Operand) (rest : List Edge),
    (Spec.Offered s 0x08#8 f d rest → step s = .next
      (if f = 0 ∧ d = 0 then Spec.withTriple (Spec.taken s rest) (Spec.round (Spec.nums s) 13 8 13)
       else Spec.faulted (Spec.taken s rest) 1#2)) ∧
    (Spec.Offered s 0x09#8 f d rest → step s = .next
      (if f = 0 ∧ d = 0 then Spec.withTriple (Spec.taken s rest) (Spec.round (Spec.nums s) 12 16 5)
       else Spec.faulted (Spec.taken s rest) 1#2)) ∧
    (Spec.Offered s 0x0A#8 f d rest → step s = .next
      (if f = 0 ∧ d = 0 then Spec.withTriple (Spec.taken s rest) (Spec.round (Spec.nums s) 3 10 15)
       else Spec.faulted (Spec.taken s rest) 1#2)) ∧
    (Spec.Offered s 0x04#8 f d rest → step s = .next
      (if f = 0 ∧ d = 0 then Spec.withTriple (Spec.taken s rest) (Spec.mix (Spec.nums s))
       else Spec.faulted (Spec.taken s rest) 1#2))

/-- R102, R104: the words of HINIT and HFIN. -/
def Obligations.HinitHfinWordsAtThePort : Prop :=
  ∀ (s : State) (f : Small) (d : Operand) (rest : List Edge),
    (Spec.Offered s 0x20#8 f d rest → step s = .next
      (if f = 0 ∧ d = 0 then { s with port := rest, h := 0#32 } else Spec.faulted (Spec.taken s rest) 1#2)) ∧
    (Spec.Offered s 0x22#8 f d rest → step s = .next
      (if f = 0 ∧ d = 0 then { s with port := rest, h := Spec.word (Spec.oaatFin s.h.toNat) }
       else Spec.faulted (Spec.taken s rest) 1#2))

/-- R103: the word of HABS, under either value of WIDE_ELEM. -/
def Obligations.HabsWordAtThePort : Prop :=
  ∀ (s : State) (f : Small) (d : Operand) (rest : List Edge), Spec.Offered s 0x21#8 f d rest →
    step s = .next
      (if f ≠ 0 then Spec.faulted (Spec.taken s rest) 1#2
       else if 255 < d.toNat ∧ s.wideElem = .reject then Spec.faulted (Spec.taken s rest) 2#2
       else { s with port := rest, h := Spec.word (Spec.oaatStep s.h.toNat d.toNat) })

/-- R71: every word with `op = 0x40` is a legal LRS, and LRS cannot fault. -/
def Obligations.LrsWordAtThePort : Prop :=
  ∀ (s : State) (f : Small) (d : Operand) (rest : List Edge), Spec.Offered s 0x40#8 f d rest →
    step s = .next { s with port := rest, r := Spec.word (Spec.lrs d.toNat f.toNat) }

/-! ## Rules about the whole machine -/

/-- R22: the unit a command belongs to decides what it may change; a command that faults changes no data register; LRS
changes neither ERR nor ECAUSE (R71); no command touches the host's side of the port or the MODEL's own fields (notes/assumptions/1.md to 3.md). -/
def Obligations.UnitsAreIndependent : Prop :=
  ∀ (i : Instr) (s t : State), exec i s = .next t →
    (unitOf i = .mix → t.h = s.h ∧ t.r = s.r) ∧
    (unitOf i = .oaat → t.a = s.a ∧ t.b = s.b ∧ t.c = s.c ∧ t.r = s.r) ∧
    (unitOf i = .lrs → t.a = s.a ∧ t.b = s.b ∧ t.c = s.c ∧ t.h = s.h ∧ t.err = s.err ∧ t.ecause = s.ecause) ∧
    (t.err ≠ s.err → t.a = s.a ∧ t.b = s.b ∧ t.c = s.c ∧ t.h = s.h ∧ t.r = s.r) ∧
    t.port = s.port ∧ t.wideElem = s.wideElem ∧ t.resets = s.resets

/-- R143: a step that faults, from a running block, sets ERR and ECAUSE and nothing else; its cause is 1 or 2. -/
def Obligations.FaultsArePrecise : Prop :=
  ∀ s t : State, s.err = 0#1 → step s = .next t → t.err = 1#1 →
    ∃ (e : Edge) (rest : List Edge), s.port = e :: rest ∧
      (t = Spec.faulted { s with port := rest } 1#2 ∨ t = Spec.faulted { s with port := rest } 2#2)

/-- R142: InvalidInputEncoding is raised by ADDL.x when `d > 255`, always, by HABS when `d > 255` under `reject`, and by
no other command. -/
def Obligations.InvalidInputExactlyOnNonBytes : Prop :=
  ∀ (i : Instr) (s : State), s.err = 0#1 →
    (exec i s = .next (Spec.faulted s 2#2) ↔ Spec.InvalidInput s.wideElem i) ∧
    (¬ Spec.InvalidInput s.wideElem i → ∃ t, exec i s = .next t ∧ t.err = 0#1 ∧ t.ecause = s.ecause)

/-- R2, R3: the next state of a unit's registers is a function of those registers, ERR, the command and WIDE_ELEM
alone: two states that agree on them, whatever the other units hold, agree after the command. -/
def Obligations.UnitsReadOnlyTheirOwnRegisters : Prop :=
  ∀ (i : Instr) (s s' t t' : State), s.err = s'.err → s.ecause = s'.ecause → s.wideElem = s'.wideElem →
    exec i s = .next t → exec i s' = .next t' →
    (unitOf i = .mix → s.triple = s'.triple → t.triple = t'.triple ∧ t.err = t'.err ∧ t.ecause = t'.ecause) ∧
    (unitOf i = .oaat → s.h = s'.h → t.h = t'.h ∧ t.err = t'.err ∧ t.ecause = t'.ecause) ∧
    (unitOf i = .lrs → s.err = 0#1 → t.r = t'.r ∧ t.err = t'.err ∧ t.ecause = t'.ecause)

/-- R126: commands of different units, neither of which faults, may be interleaved. -/
def Obligations.CommandsOfDifferentUnitsCommute : Prop :=
  ∀ (s : State) (i j : Instr), unitOf i ≠ unitOf j → ¬ Spec.InvalidInput s.wideElem i →
    ¬ Spec.InvalidInput s.wideElem j → Spec.pair i j s = Spec.pair j i s

/-- R166: the host can set the MIX registers to any triple it read earlier. -/
def Obligations.MixTripleCanBeRestored : Prop :=
  ∀ (s : State) (a b c : Word), s.err = 0#1 →
    execAll [.minit c, .addwA (wordOperand (a - 0x9e3779b9#32)), .addwB (wordOperand (b - 0x9e3779b9#32))] s =
      .next { s with a := a, b := b, c := c }

/-! ## The host sequences -/

/-- R114: the four commands of full block j, and their effect: word m is `data[12j+4m] + data[12j+4m+1] * 2^8 + …`,
added into A, B, C, and then the mixing step. -/
def Obligations.FullBlockAddsWordsAndMixes : Prop :=
  ∀ (s : State) (data : List Byte) (j : Nat), s.err = 0#1 →
    blockCommands data j = Spec.blockList data (12 * j) ∧
    execAll (blockCommands data j) s = .next (Spec.withTriple s (Spec.absorbBlock data (Spec.nums s) j))

/-- R116: the commands are the rows with threshold `rem` down to 1, so exactly `rem`, and their effect is the closed
form, with c's bytes one lane higher. -/
def Obligations.TailTableHasItsClosedForm : Prop :=
  ∀ (s : State) (t : List Byte), s.err = 0#1 → t.length ≤ 11 →
    tailCommands t = Spec.tailList t 0 t.length ∧
    (tailCommands t).length = t.length ∧
    execAll (tailCommands t) s = .next
      (Spec.withTriple s (Spec.add s.a.toNat (Spec.wordAt t 0), Spec.add s.b.toNat (Spec.wordAt t 4),
        Spec.add s.c.toNat (Spec.tailC t 0)))

/-- R113 to R118, R148: for a message that is not empty, with a seed or without one, the host's commands are R118's
lines; from every running state their words, offered at the port, run without a fault and leave in C the digest
`mixhash(data, seed)`; H and R are untouched. The triple is written on numbers, each byte at its place in the message:
word m of block j is `data[12j+4m .. 12j+4m+3]`, and the tail's t[m] is `data[12 * (L/12) + m]`. The model's own
function `mixhash` gives that digest. -/
def Obligations.MixhashSequenceComputesMixhash : Prop :=
  ∀ (data : List Byte) (seed : Option Word), data ≠ [] →
    mixhashCommands data seed = Spec.mhashList (Spec.seed seed) data ∧
    mixhash data (Spec.seed seed) = Spec.word (Spec.mixhash data (Spec.seed seed).toNat).2.2 ∧
    (∀ (s : State) (rest : List Edge), s.err = 0#1 →
      s.port = commandEdges ((mixhashCommands data seed).map encode) ++ rest →
      Host.Core.run Sys2Proof.core (mixhashCommands data seed).length s = .next
        (Spec.withTriple (Spec.taken s rest) (Spec.mixhash data (Spec.seed seed).toNat)))

/-- R112: for the empty message the host issues no command and gives 0, for every seed and without one. -/
def Obligations.MixhashOfEmptyMessageIsZero : Prop :=
  ∀ (seed : Option Word) (cq : Word),
    mixhashCommands [] seed = [] ∧ mixhashResult [] cq = 0#32 ∧ mixhash [] (Spec.seed seed) = 0#32

/-- R119, R120, R148: the commands are R119's lines; from every running state their words run without a fault and leave
in H the digest `ooat(data)`, written on numbers, whatever WIDE_ELEM is; A, B, C and R are untouched. The model's own
function `ooat` gives that digest. -/
def Obligations.OoatSequenceComputesOoat : Prop :=
  ∀ data : List Byte,
    ooatCommands data = Spec.ooatList data ∧
    ooat data = Spec.word (Spec.ooat data) ∧
    (∀ (s : State) (rest : List Edge), s.err = 0#1 →
      s.port = commandEdges ((ooatCommands data).map encode) ++ rest →
      Host.Core.run Sys2Proof.core (ooatCommands data).length s = .next
        { s with port := rest, h := Spec.word (Spec.ooat data) })

/-- R118, R119: `4q + rem + 3` commands of which `q + 1` are MIX, and `n + 2` commands. -/
def Obligations.SequenceLengths : Prop :=
  (∀ (seed : Word) (data : List Byte),
    (mhash seed data).length = 4 * (data.length / 12) + data.length % 12 + 3 ∧
    ((mhash seed data).filter (fun i => decide (i = .mix))).length = data.length / 12 + 1) ∧
  (∀ data : List Byte, (ooatCommands data).length = data.length + 2)

/-- R57, R121 to R123: the assembler accepts exactly the operands in their stated ranges, and a negative one encodes as
`v + 2^64`. (What a non-negative one encodes as: AssemblerEncodesNonNegativeOperands; what a pseudo-instruction expands
to: AssemblerExpandsPseudoInstructions.) -/
def Obligations.AssemblerAcceptsStatedRanges : Prop :=
  (∀ seed : Int, (assemble (.minit seed)).isSome = true ↔ 0 ≤ seed ∧ seed ≤ 2 ^ 32 - 1) ∧
  (∀ (x : XSel) (v : Int), (assemble (.addw x v)).isSome = true ↔ -2 ^ 63 ≤ v ∧ v ≤ 2 ^ 64 - 1) ∧
  (∀ (x : XSel) (k v : Int), (assemble (.addl x k v)).isSome = true ↔
    (0 ≤ k ∧ k ≤ 3) ∧ 0 ≤ v ∧ v ≤ 2 ^ 64 - 1) ∧
  (∀ v : Int, (assemble (.habs v)).isSome = true ↔ -2 ^ 63 ≤ v ∧ v ≤ 2 ^ 64 - 1) ∧
  (∀ n v : Int, (assemble (.lrs n v)).isSome = true ↔
    (0 ≤ n ∧ n ≤ 255) ∧ -2 ^ 63 ≤ v ∧ v ≤ 2 ^ 64 - 1) ∧
  (∀ v : Int, -2 ^ 63 ≤ v → v < 0 →
    (∀ x : XSel, assemble (.addw x v) = some [addwInstr x (BitVec.ofNat 64 (v + 2 ^ 64).toNat)]) ∧
    assemble (.habs v) = some [.habs (BitVec.ofNat 64 (v + 2 ^ 64).toNat)] ∧
    (∀ n : Small, assemble (.lrs n.toNat v) = some [.lrs n (BitVec.ofNat 64 (v + 2 ^ 64).toNat)])) ∧
  (∀ bytes : List Int, (assemble (.mblk bytes)).isSome = true ↔
    bytes.length = 12 ∧ ∀ b ∈ bytes, 0 ≤ b ∧ b ≤ 255) ∧
  (∀ (len : Int) (t : List Int), (assemble (.mtail len t)).isSome = true ↔
    (1 ≤ len ∧ len % 12 = t.length) ∧ ∀ b ∈ t, 0 ≤ b ∧ b ≤ 255) ∧
  (∀ (seed : Int) (bytes : List Int), (assemble (.mhash seed bytes)).isSome = true ↔
    ((0 ≤ seed ∧ seed ≤ 2 ^ 32 - 1) ∧ bytes ≠ []) ∧ ∀ b ∈ bytes, 0 ≤ b ∧ b ≤ 255) ∧
  (∀ bytes : List Int, (assemble (.hstr bytes)).isSome = true ↔ ∀ b ∈ bytes, 0 ≤ b ∧ b ≤ 255)

/-- R113: for a message that is not empty the sequence begins with `MINIT seed`, and when the caller gives no seed the
host uses 0. -/
def Obligations.MixhashWithoutSeedUsesZero : Prop :=
  ∀ data : List Byte, data ≠ [] →
    (∀ seed : Word, (mixhashCommands data (some seed)).head? = some (.minit seed)) ∧
    mixhashCommands data none = mixhashCommands data (some 0#32)

/-- R57: a non-negative operand in its range encodes as the integer written, a non-byte operand of ADDL.x or HABS too,
and the commands without operands are themselves. -/
def Obligations.AssemblerEncodesNonNegativeOperands : Prop :=
  (∀ v : Nat, v < 2 ^ 32 → assemble (.minit v) = some [.minit (BitVec.ofNat 32 v)]) ∧
  (∀ v : Nat, v < 2 ^ 64 →
    (∀ x : XSel, assemble (.addw x v) = some [Spec.addw x (Spec.operand v)]) ∧
    (∀ (x : XSel) (k : Nat), k ≤ 3 → assemble (.addl x k v) = some [Spec.addl x k (Spec.operand v)]) ∧
    assemble (.habs v) = some [.habs (Spec.operand v)] ∧
    (∀ n : Small, assemble (.lrs n.toNat v) = some [.lrs n (Spec.operand v)])) ∧
  assemble .mix = some [.mix] ∧
  assemble (.mrnd .r0) = some [.mrnd0] ∧ assemble (.mrnd .r1) = some [.mrnd1] ∧ assemble (.mrnd .r2) = some [.mrnd2] ∧
  assemble .hinit = some [.hinit] ∧ assemble .hfin = some [.hfin]

/-- R121 to R123: what MBLK, MTAIL, MHASH and HSTR expand to, byte by byte. -/
def Obligations.AssemblerExpandsPseudoInstructions : Prop :=
  (∀ data : List Byte, data.length = 12 →
    assemble (.mblk (Spec.ints data)) = some (Spec.blockList data 0)) ∧
  (∀ (len : Nat) (t : List Byte), 1 ≤ len → len % 12 = t.length →
    assemble (.mtail len (Spec.ints t)) =
      some ([.addwC (Spec.operand len)] ++ Spec.tailList t 0 t.length ++ [.mix])) ∧
  (∀ (seed : Word) (data : List Byte), data ≠ [] →
    assemble (.mhash seed.toNat (Spec.ints data)) = some (Spec.mhashList seed data)) ∧
  (∀ data : List Byte, assemble (.hstr (Spec.ints data)) = some (Spec.ooatList data))
end

