-- ==== Sys2Proof/Laws/Arith.lean ====
section
/-! SUPPORT. What the operand forms and the shift are as numbers, and what the driver's operands come back to. -/

namespace Sys2Proof.Laws

open Sys2Proof.Machine

/-- `lrs` as R70 writes it: reduce modulo 2^32, then divide. -/
theorem lrs_toNat {w : Nat} (v : BitVec w) (n : Nat) : (lrs v n).toNat = v.toNat % 2 ^ 32 / 2 ^ n := by
  simp [lrs, Nat.shiftRight_eq_div_pow]

/-- On a register the reduction does nothing (R73). -/
theorem lrs_word (v : Word) (n : Nat) : lrs v n = v >>> n := by simp [lrs]

theorem lowWord_toNat (d : Operand) : (lowWord d).toNat = d.toNat % 2 ^ 32 := by simp [lowWord]

@[simp] theorem lowWord_wordOperand (w : Word) : lowWord (wordOperand w) = w := by
  apply BitVec.eq_of_toNat_eq; simp [lowWord, wordOperand]

@[simp] theorem lowWord_byteOperand (b : Byte) : lowWord (byteOperand b) = b.setWidth 32 := by
  simp [lowWord, byteOperand]

@[simp] theorem lowWord_lengthOperand (n : Nat) : lowWord (lengthOperand n) = BitVec.ofNat 32 n := by
  apply BitVec.eq_of_toNat_eq; simp [lowWord, lengthOperand]

theorem byteOperand_toNat (b : Byte) : (byteOperand b).toNat = b.toNat := by
  simp [byteOperand]; omega

theorem byteOperand_le (b : Byte) : (byteOperand b).toNat ≤ 255 := by
  rw [byteOperand_toNat]; omega

/-- A lane is one of four. -/
theorem lane_cases (k : Lane) : k.toNat = 0 ∨ k.toNat = 1 ∨ k.toNat = 2 ∨ k.toNat = 3 := by omega

/-- A byte in its lane: `d * 2^(8k)`, without loss (R13, R88). -/
theorem laneTerm_toNat (k : Lane) {d : Operand} (h : d.toNat ≤ 255) :
    (laneTerm k d).toNat = d.toNat * 2 ^ (8 * k.toNat) := by
  have hd : (d.setWidth 8).setWidth 32 = BitVec.ofNat 32 d.toNat := by
    apply BitVec.eq_of_toNat_eq; simp; omega
  rw [laneTerm, hd, BitVec.toNat_shiftLeft, laneShift, Nat.shiftLeft_eq]
  rcases lane_cases k with h | h | h | h <;> rw [h] <;> simp <;> omega

theorem laneTerm_byteOperand (k : Lane) (b : Byte) :
    laneTerm k (byteOperand b) = (b.setWidth 32) <<< (8 * k.toNat) := by
  unfold laneTerm laneShift byteOperand
  congr 1
  simp

/-- Beyond the message `byteAt` gives 0: the "`t[m] = 0` for `m ≥ rem`" of R116's closed form. -/
theorem byteAt_of_length_le {data : List Byte} {n : Nat} (h : data.length ≤ n) : byteAt data n = 0 := by
  simp only [byteAt, List.getD]
  rw [List.getElem?_eq_none h]
  rfl

theorem tailBytes_length (data : List Byte) : (tailBytes data).length = data.length % 12 := by
  simp [tailBytes, fullBlocks, blockBytes]; omega

/-- A seed the caller gives is the seed (R113). -/
@[simp] theorem seedOf_some (seed : Word) : seedOf (some seed) = seed := rfl

/-- Without one it is 0 (R113). -/
@[simp] theorem seedOf_none : seedOf none = 0#32 := rfl

/-- A call on a message that is not empty issues R118's sequence. -/
theorem mixhashCommands_of_ne_nil {data : List Byte} (h : data ≠ []) (seed : Option Word) :
    mixhashCommands data seed = mhash (seedOf seed) data := by
  cases data with
  | nil => exact absurd rfl h
  | cons b rest => rfl

end Sys2Proof.Laws
end

