-- ==== Sys2Proof/Laws/Decode.lean ====
section
/-! SUPPORT. The command word as its three fields, when a row of the opcode map matches it, and the decoder as a
function of the fields. -/

namespace Sys2Proof.Laws

/-- Every command is within its operand ranges: the types say so. -/
theorem instr_wellFormed (i : Instr) : i.wellFormed = true := by
  cases i <;> simp [Instr.wellFormed] <;> omega

/-- A word is its fields (R50). -/
theorem fieldsWord_of_fields (w : CmdWord) : fieldsWord (opOf w) (fOf w) (dOf w) = w := by
  have h : w.extractLsb' 0 80 = w := by simp
  unfold fieldsWord opOf fOf dOf
  rw [BitVec.extractLsb'_append_extractLsb'_eq_extractLsb' (by omega),
    BitVec.extractLsb'_append_extractLsb'_eq_extractLsb' (by omega)]
  exact h

/-! ## The fields of a word written by its fields -/

@[simp] theorem opOf_fieldsWord (op : BitVec 8) (f : Small) (d : Operand) : opOf (fieldsWord op f d) = op := by
  unfold opOf fieldsWord
  rw [BitVec.extractLsb'_append_eq_of_le (by omega)]
  exact BitVec.extractLsb'_append_eq_left

@[simp] theorem fOf_fieldsWord (op : BitVec 8) (f : Small) (d : Operand) : fOf (fieldsWord op f d) = f := by
  unfold fOf fieldsWord
  rw [BitVec.extractLsb'_append_eq_of_le (by omega)]
  exact BitVec.extractLsb'_append_eq_right

@[simp] theorem dOf_fieldsWord (op : BitVec 8) (f : Small) (d : Operand) : dOf (fieldsWord op f d) = d := by
  unfold dOf fieldsWord
  exact BitVec.extractLsb'_append_eq_right

@[simp] theorem imm32Of_fieldsWord (op : BitVec 8) (f : Small) (d : Operand) :
    imm32Of (fieldsWord op f d) = d.setWidth 32 := by
  unfold imm32Of fieldsWord
  rw [BitVec.extractLsb'_append_eq_of_add_le (by omega), ← BitVec.setWidth_eq_extractLsb' (by omega)]

@[simp] theorem kOf_fieldsWord (op : BitVec 8) (f : Small) (d : Operand) :
    kOf (fieldsWord op f d) = f.setWidth 2 := by
  unfold kOf fieldsWord
  rw [BitVec.extractLsb'_append_eq_of_le (by omega), BitVec.extractLsb'_append_eq_of_add_le (by omega),
    ← BitVec.setWidth_eq_extractLsb' (by omega)]

theorem fieldsWord_inj {op op' : BitVec 8} {f f' : Small} {d d' : Operand} :
    fieldsWord op f d = fieldsWord op' f' d' ↔ op = op' ∧ f = f' ∧ d = d' := by
  constructor
  · intro h
    exact ⟨by simpa using congrArg opOf h, by simpa using congrArg fOf h, by simpa using congrArg dOf h⟩
  · rintro ⟨rfl, rfl, rfl⟩; rfl

theorem fieldsWord_and (op op' : BitVec 8) (f f' : Small) (d d' : Operand) :
    fieldsWord op f d &&& fieldsWord op' f' d' = fieldsWord (op &&& op') (f &&& f') (d &&& d') := by
  unfold fieldsWord
  rw [BitVec.and_append, BitVec.and_append]

/-! ## When a row matches -/

/-- The must-be-zero bits of a format (R51) are zero. -/
def reservedZero (fmt : Format) (f : Small) (d : Operand) : Prop :=
  match fmt with
  | .Z => f = 0 ∧ d = 0
  | .S => f = 0 ∧ d.extractLsb' 32 32 = 0
  | .W => f = 0
  | .L => f.extractLsb' 2 6 = 0
  | .N => True

/-- The mask of a format by its fields. -/
def maskF : Format → Small
  | .Z => 0xFF#8
  | .S => 0xFF#8
  | .W => 0xFF#8
  | .L => 0xFC#8
  | .N => 0x00#8

/-- The mask of a format on `d`. -/
def maskD : Format → Operand
  | .Z => 0xFFFFFFFFFFFFFFFF#64
  | .S => 0xFFFFFFFF00000000#64
  | .W => 0#64
  | .L => 0#64
  | .N => 0#64

theorem formatMask_fields (fmt : Format) : formatMask fmt = fieldsWord 0xFF#8 (maskF fmt) (maskD fmt) := by
  cases fmt <;> decide

theorem and_allOnes8 (x : BitVec 8) : x &&& 0xFF#8 = x := BitVec.and_allOnes

theorem maskD_upper (d : Operand) : d &&& 0xFFFFFFFF00000000#64 = 0 ↔ d.extractLsb' 32 32 = 0 := by
  have hd : d = d.extractLsb' 32 32 ++ d.extractLsb' 0 32 := by
    rw [BitVec.extractLsb'_append_extractLsb'_eq_extractLsb' (by omega)]; simp
  have hm : 0xFFFFFFFF00000000#64 = 0xFFFFFFFF#32 ++ 0#32 := by decide
  have h0 : (0 : BitVec 64) = 0#32 ++ 0#32 := by decide
  have ha : d &&& 0xFFFFFFFF00000000#64 = d.extractLsb' 32 32 ++ 0#32 := by
    conv_lhs => rw [hd, hm]
    rw [BitVec.and_append, BitVec.and_zero]
    congr 1
    exact BitVec.and_allOnes
  rw [ha, h0, BitVec.append_left_inj]
  rfl

/-- Which words a row matches, by their fields. -/
theorem rowMatches_iff (op : BitVec 8) (f : Small) (d : Operand) (row : Row) :
    rowMatches (fieldsWord op f d) row = true ↔ op = row.op ∧ reservedZero row.format f d := by
  unfold rowMatches
  rw [decide_eq_true_iff, formatMask_fields, fieldsWord_and, fieldsWord_inj, and_allOnes8]
  have hf : f &&& 0xFC#8 = 0 ↔ f.extractLsb' 2 6 = 0 := by
    revert f; decide
  cases row.format <;> simp only [reservedZero, maskF, maskD, and_allOnes8, BitVec.and_zero, maskD_upper, hf]
  · rw [show d &&& 0xFFFFFFFFFFFFFFFF#64 = d from BitVec.and_allOnes]
  all_goals simp

theorem rowMatches_fields (op : BitVec 8) (f : Small) (d : Operand) (row : Row)
    [Decidable (op = row.op ∧ reservedZero row.format f d)] :
    rowMatches (fieldsWord op f d) row = decide (op = row.op ∧ reservedZero row.format f d) := by
  rw [Bool.eq_iff_iff, rowMatches_iff, decide_eq_true_iff]

/-! ## The decoder on the fields -/

/-- The decoder's search over part of the table. -/
def decodeRows (rows : List Row) (w : CmdWord) : Except Exc Instr :=
  match rows.find? (rowMatches w) with
  | some row => .ok (row.build w)
  | none => .error .illegalCommand

theorem decode_eq_decodeRows (w : CmdWord) : decode w = decodeRows opcodeTable w := rfl

theorem decodeRows_nil (w : CmdWord) : decodeRows [] w = .error .illegalCommand := rfl

theorem decodeRows_cons (row : Row) (rows : List Row) (w : CmdWord) :
    decodeRows (row :: rows) w = if rowMatches w row = true then .ok (row.build w) else decodeRows rows w := by
  unfold decodeRows
  rw [List.find?_cons]
  cases rowMatches w row <;> simp

/-- The decoder, row by row, on a word given by its fields. -/
theorem decode_fields (op : BitVec 8) (f : Small) (d : Operand) :
    decode (fieldsWord op f d) =
      if op = 0x01#8 ∧ f = 0 ∧ d.extractLsb' 32 32 = 0 then .ok (.minit (d.setWidth 32))
      else if op = 0x04#8 ∧ f = 0 ∧ d = 0 then .ok .mix
      else if op = 0x08#8 ∧ f = 0 ∧ d = 0 then .ok .mrnd0
      else if op = 0x09#8 ∧ f = 0 ∧ d = 0 then .ok .mrnd1
      else if op = 0x0A#8 ∧ f = 0 ∧ d = 0 then .ok .mrnd2
      else if op = 0x10#8 ∧ f = 0 then .ok (.addwA d)
      else if op = 0x11#8 ∧ f = 0 then .ok (.addwB d)
      else if op = 0x12#8 ∧ f = 0 then .ok (.addwC d)
      else if op = 0x14#8 ∧ f.extractLsb' 2 6 = 0 then .ok (.addlA (f.setWidth 2) d)
      else if op = 0x15#8 ∧ f.extractLsb' 2 6 = 0 then .ok (.addlB (f.setWidth 2) d)
      else if op = 0x16#8 ∧ f.extractLsb' 2 6 = 0 then .ok (.addlC (f.setWidth 2) d)
      else if op = 0x20#8 ∧ f = 0 ∧ d = 0 then .ok .hinit
      else if op = 0x21#8 ∧ f = 0 then .ok (.habs d)
      else if op = 0x22#8 ∧ f = 0 ∧ d = 0 then .ok .hfin
      else if op = 0x40#8 then .ok (.lrs f d)
      else .error .illegalCommand := by
  rw [decode_eq_decodeRows, opcodeTable]
  simp only [decodeRows_cons, decodeRows_nil, rowMatches_iff, reservedZero, and_true, imm32Of_fieldsWord,
    kOf_fieldsWord, dOf_fieldsWord, fOf_fieldsWord]

/-- The decoder on any word, by the word's fields. -/
theorem decode_of_fields (w : CmdWord) : decode w = decode (fieldsWord (opOf w) (fOf w) (dOf w)) := by
  rw [fieldsWord_of_fields]

/-- What the decoder's two answers mean: the row of the command matches, or no row does. -/
theorem decode_ok {w : CmdWord} {i : Instr} (h : decode w = .ok i) :
    ∃ row ∈ opcodeTable, rowMatches w row = true ∧ row.build w = i := by
  unfold decode at h
  cases hf : opcodeTable.find? (rowMatches w) with
  | none => rw [hf] at h; simp at h
  | some row =>
    rw [hf] at h
    exact ⟨row, List.mem_of_find?_eq_some hf, List.find?_some hf, by injection h⟩

theorem decode_error {w : CmdWord} {x : Exc} (h : decode w = .error x) :
    x = .illegalCommand ∧ ∀ row ∈ opcodeTable, rowMatches w row = false := by
  unfold decode at h
  cases hf : opcodeTable.find? (rowMatches w) with
  | none =>
    rw [hf] at h
    exact ⟨by injection h with h; exact h.symm, fun row hr => by simpa using List.find?_eq_none.1 hf row hr⟩
  | some row => rw [hf] at h; simp at h

/-! ## The must-be-zero fields as numbers -/

theorem upper_zero_iff (d : Operand) : d.extractLsb' 32 32 = 0 ↔ d.toNat / 2 ^ 32 = 0 := by
  rw [← BitVec.toNat_inj]
  have := d.isLt
  simp [BitVec.extractLsb'_toNat, Nat.shiftRight_eq_div_pow]
  omega

theorem lane_zero_iff (f : Small) : f.extractLsb' 2 6 = 0 ↔ f.toNat / 4 = 0 := by
  revert f; decide

theorem setWidth_low_of_upper (d : Operand) (h : d.extractLsb' 32 32 = 0) : (d.setWidth 32).setWidth 64 = d := by
  rw [upper_zero_iff] at h
  apply BitVec.eq_of_toNat_eq
  have := d.isLt
  simp
  omega

theorem setWidth_lane_of_zero (f : Small) (h : f.extractLsb' 2 6 = 0) : (f.setWidth 2).setWidth 8 = f := by
  revert f; decide

end Sys2Proof.Laws
end

