-- ==== Sys2Proof/Laws/State.lean ====
section
/-! SUPPORT. What each update of the state does to each field: one lemma per field per update, so that no proof
unfolds a record update. -/

namespace Sys2Proof.Laws

open Sys2Proof.Machine

/-! ## s.setX .A v -/

@[simp] theorem setXA_a (s : State) (v : Word) : (s.setX .A v).a = v := rfl
@[simp] theorem setXA_b (s : State) (v : Word) : (s.setX .A v).b = s.b := rfl
@[simp] theorem setXA_c (s : State) (v : Word) : (s.setX .A v).c = s.c := rfl
@[simp] theorem setXA_h (s : State) (v : Word) : (s.setX .A v).h = s.h := rfl
@[simp] theorem setXA_r (s : State) (v : Word) : (s.setX .A v).r = s.r := rfl
@[simp] theorem setXA_err (s : State) (v : Word) : (s.setX .A v).err = s.err := rfl
@[simp] theorem setXA_ecause (s : State) (v : Word) : (s.setX .A v).ecause = s.ecause := rfl
@[simp] theorem setXA_wideElem (s : State) (v : Word) : (s.setX .A v).wideElem = s.wideElem := rfl
@[simp] theorem setXA_port (s : State) (v : Word) : (s.setX .A v).port = s.port := rfl
@[simp] theorem setXA_resets (s : State) (v : Word) : (s.setX .A v).resets = s.resets := rfl

/-! ## s.setX .B v -/

@[simp] theorem setXB_a (s : State) (v : Word) : (s.setX .B v).a = s.a := rfl
@[simp] theorem setXB_b (s : State) (v : Word) : (s.setX .B v).b = v := rfl
@[simp] theorem setXB_c (s : State) (v : Word) : (s.setX .B v).c = s.c := rfl
@[simp] theorem setXB_h (s : State) (v : Word) : (s.setX .B v).h = s.h := rfl
@[simp] theorem setXB_r (s : State) (v : Word) : (s.setX .B v).r = s.r := rfl
@[simp] theorem setXB_err (s : State) (v : Word) : (s.setX .B v).err = s.err := rfl
@[simp] theorem setXB_ecause (s : State) (v : Word) : (s.setX .B v).ecause = s.ecause := rfl
@[simp] theorem setXB_wideElem (s : State) (v : Word) : (s.setX .B v).wideElem = s.wideElem := rfl
@[simp] theorem setXB_port (s : State) (v : Word) : (s.setX .B v).port = s.port := rfl
@[simp] theorem setXB_resets (s : State) (v : Word) : (s.setX .B v).resets = s.resets := rfl

/-! ## s.setX .C v -/

@[simp] theorem setXC_a (s : State) (v : Word) : (s.setX .C v).a = s.a := rfl
@[simp] theorem setXC_b (s : State) (v : Word) : (s.setX .C v).b = s.b := rfl
@[simp] theorem setXC_c (s : State) (v : Word) : (s.setX .C v).c = v := rfl
@[simp] theorem setXC_h (s : State) (v : Word) : (s.setX .C v).h = s.h := rfl
@[simp] theorem setXC_r (s : State) (v : Word) : (s.setX .C v).r = s.r := rfl
@[simp] theorem setXC_err (s : State) (v : Word) : (s.setX .C v).err = s.err := rfl
@[simp] theorem setXC_ecause (s : State) (v : Word) : (s.setX .C v).ecause = s.ecause := rfl
@[simp] theorem setXC_wideElem (s : State) (v : Word) : (s.setX .C v).wideElem = s.wideElem := rfl
@[simp] theorem setXC_port (s : State) (v : Word) : (s.setX .C v).port = s.port := rfl
@[simp] theorem setXC_resets (s : State) (v : Word) : (s.setX .C v).resets = s.resets := rfl

/-! ## s.setTriple t -/

@[simp] theorem setTriple_a (s : State) (t : Triple) : (s.setTriple t).a = t.a := rfl
@[simp] theorem setTriple_b (s : State) (t : Triple) : (s.setTriple t).b = t.b := rfl
@[simp] theorem setTriple_c (s : State) (t : Triple) : (s.setTriple t).c = t.c := rfl
@[simp] theorem setTriple_h (s : State) (t : Triple) : (s.setTriple t).h = s.h := rfl
@[simp] theorem setTriple_r (s : State) (t : Triple) : (s.setTriple t).r = s.r := rfl
@[simp] theorem setTriple_err (s : State) (t : Triple) : (s.setTriple t).err = s.err := rfl
@[simp] theorem setTriple_ecause (s : State) (t : Triple) : (s.setTriple t).ecause = s.ecause := rfl
@[simp] theorem setTriple_wideElem (s : State) (t : Triple) : (s.setTriple t).wideElem = s.wideElem := rfl
@[simp] theorem setTriple_port (s : State) (t : Triple) : (s.setTriple t).port = s.port := rfl
@[simp] theorem setTriple_resets (s : State) (t : Triple) : (s.setTriple t).resets = s.resets := rfl

/-! ## s.setH v -/

@[simp] theorem setH_a (s : State) (v : Word) : (s.setH v).a = s.a := rfl
@[simp] theorem setH_b (s : State) (v : Word) : (s.setH v).b = s.b := rfl
@[simp] theorem setH_c (s : State) (v : Word) : (s.setH v).c = s.c := rfl
@[simp] theorem setH_h (s : State) (v : Word) : (s.setH v).h = v := rfl
@[simp] theorem setH_r (s : State) (v : Word) : (s.setH v).r = s.r := rfl
@[simp] theorem setH_err (s : State) (v : Word) : (s.setH v).err = s.err := rfl
@[simp] theorem setH_ecause (s : State) (v : Word) : (s.setH v).ecause = s.ecause := rfl
@[simp] theorem setH_wideElem (s : State) (v : Word) : (s.setH v).wideElem = s.wideElem := rfl
@[simp] theorem setH_port (s : State) (v : Word) : (s.setH v).port = s.port := rfl
@[simp] theorem setH_resets (s : State) (v : Word) : (s.setH v).resets = s.resets := rfl

/-! ## s.setR v -/

@[simp] theorem setR_a (s : State) (v : Word) : (s.setR v).a = s.a := rfl
@[simp] theorem setR_b (s : State) (v : Word) : (s.setR v).b = s.b := rfl
@[simp] theorem setR_c (s : State) (v : Word) : (s.setR v).c = s.c := rfl
@[simp] theorem setR_h (s : State) (v : Word) : (s.setR v).h = s.h := rfl
@[simp] theorem setR_r (s : State) (v : Word) : (s.setR v).r = v := rfl
@[simp] theorem setR_err (s : State) (v : Word) : (s.setR v).err = s.err := rfl
@[simp] theorem setR_ecause (s : State) (v : Word) : (s.setR v).ecause = s.ecause := rfl
@[simp] theorem setR_wideElem (s : State) (v : Word) : (s.setR v).wideElem = s.wideElem := rfl
@[simp] theorem setR_port (s : State) (v : Word) : (s.setR v).port = s.port := rfl
@[simp] theorem setR_resets (s : State) (v : Word) : (s.setR v).resets = s.resets := rfl

/-! ## s.raise e -/

@[simp] theorem raise_a (s : State) (e : Exc) : (s.raise e).a = s.a := rfl
@[simp] theorem raise_b (s : State) (e : Exc) : (s.raise e).b = s.b := rfl
@[simp] theorem raise_c (s : State) (e : Exc) : (s.raise e).c = s.c := rfl
@[simp] theorem raise_h (s : State) (e : Exc) : (s.raise e).h = s.h := rfl
@[simp] theorem raise_r (s : State) (e : Exc) : (s.raise e).r = s.r := rfl
@[simp] theorem raise_err (s : State) (e : Exc) : (s.raise e).err = 1#1 := rfl
@[simp] theorem raise_ecause (s : State) (e : Exc) : (s.raise e).ecause = excCode e := rfl
@[simp] theorem raise_wideElem (s : State) (e : Exc) : (s.raise e).wideElem = s.wideElem := rfl
@[simp] theorem raise_port (s : State) (e : Exc) : (s.raise e).port = s.port := rfl
@[simp] theorem raise_resets (s : State) (e : Exc) : (s.raise e).resets = s.resets := rfl

/-! ## s.withPort p -/

@[simp] theorem withPort_a (s : State) (p : List Edge) : (s.withPort p).a = s.a := rfl
@[simp] theorem withPort_b (s : State) (p : List Edge) : (s.withPort p).b = s.b := rfl
@[simp] theorem withPort_c (s : State) (p : List Edge) : (s.withPort p).c = s.c := rfl
@[simp] theorem withPort_h (s : State) (p : List Edge) : (s.withPort p).h = s.h := rfl
@[simp] theorem withPort_r (s : State) (p : List Edge) : (s.withPort p).r = s.r := rfl
@[simp] theorem withPort_err (s : State) (p : List Edge) : (s.withPort p).err = s.err := rfl
@[simp] theorem withPort_ecause (s : State) (p : List Edge) : (s.withPort p).ecause = s.ecause := rfl
@[simp] theorem withPort_wideElem (s : State) (p : List Edge) : (s.withPort p).wideElem = s.wideElem := rfl
@[simp] theorem withPort_port (s : State) (p : List Edge) : (s.withPort p).port = p := rfl
@[simp] theorem withPort_resets (s : State) (p : List Edge) : (s.withPort p).resets = s.resets := rfl

/-! ## s.resetEvent -/

@[simp] theorem resetEvent_a (s : State) : (s.resetEvent).a = Config.resetValue s.resets .A := rfl
@[simp] theorem resetEvent_b (s : State) : (s.resetEvent).b = Config.resetValue s.resets .B := rfl
@[simp] theorem resetEvent_c (s : State) : (s.resetEvent).c = Config.resetValue s.resets .C := rfl
@[simp] theorem resetEvent_h (s : State) : (s.resetEvent).h = Config.resetValue s.resets .H := rfl
@[simp] theorem resetEvent_r (s : State) : (s.resetEvent).r = Config.resetValue s.resets .R := rfl
@[simp] theorem resetEvent_err (s : State) : (s.resetEvent).err = 0#1 := rfl
@[simp] theorem resetEvent_ecause (s : State) : (s.resetEvent).ecause = 0#2 := rfl
@[simp] theorem resetEvent_wideElem (s : State) : (s.resetEvent).wideElem = s.wideElem := rfl
@[simp] theorem resetEvent_port (s : State) : (s.resetEvent).port = s.port := rfl
@[simp] theorem resetEvent_resets (s : State) : (s.resetEvent).resets = s.resets + 1 := rfl

/-! ## A write through the selector, whichever it is -/

@[simp] theorem setX_h (s : State) (i : XSel) (v : Word) : (s.setX i v).h = s.h := by cases i <;> rfl
@[simp] theorem setX_r (s : State) (i : XSel) (v : Word) : (s.setX i v).r = s.r := by cases i <;> rfl
@[simp] theorem setX_err (s : State) (i : XSel) (v : Word) : (s.setX i v).err = s.err := by cases i <;> rfl
@[simp] theorem setX_ecause (s : State) (i : XSel) (v : Word) : (s.setX i v).ecause = s.ecause := by cases i <;> rfl
@[simp] theorem setX_wideElem (s : State) (i : XSel) (v : Word) : (s.setX i v).wideElem = s.wideElem := by cases i <;> rfl
@[simp] theorem setX_port (s : State) (i : XSel) (v : Word) : (s.setX i v).port = s.port := by cases i <;> rfl
@[simp] theorem setX_resets (s : State) (i : XSel) (v : Word) : (s.setX i v).resets = s.resets := by cases i <;> rfl

@[simp] theorem x_setX_same (s : State) (i : XSel) (v : Word) : (s.setX i v).x i = v := by cases i <;> rfl

theorem x_setX_other (s : State) {i j : XSel} (v : Word) (hij : j ≠ i) : (s.setX i v).x j = s.x j := by
  cases i <;> cases j <;> first | rfl | exact absurd rfl hij

@[simp] theorem x_A (s : State) : s.x .A = s.a := rfl
@[simp] theorem x_B (s : State) : s.x .B = s.b := rfl
@[simp] theorem x_C (s : State) : s.x .C = s.c := rfl
@[simp] theorem triple_a (s : State) : s.triple.a = s.a := rfl
@[simp] theorem triple_b (s : State) : s.triple.b = s.b := rfl
@[simp] theorem triple_c (s : State) : s.triple.c = s.c := rfl

/-! ## The halt -/

theorem halted_iff (s : State) : s.halted = true ↔ s.err = 1#1 := by simp [State.halted]

theorem halted_of_err (s : State) (h : s.err = 1#1) : s.halted = true := (halted_iff s).2 h

theorem not_halted_of_running (s : State) (h : s.err = 0#1) : s.halted = false := by simp [State.halted, h]

/-- ERR has two values. -/
theorem err_cases (s : State) : s.err = 0#1 ∨ s.err = 1#1 := by
  have h : ∀ e : BitVec 1, e = 0#1 ∨ e = 1#1 := by decide
  exact h s.err

/-! ## The shared operations -/

theorem whenRunning_running {s : State} (h : s.err = 0#1) (t : State) : whenRunning s t = .next t := by
  simp [whenRunning, not_halted_of_running s h]

theorem whenRunning_halted {s : State} (h : s.err = 1#1) (t : State) : whenRunning s t = .next s := by
  simp [whenRunning, halted_of_err s h]

/-- Everything a command's step can do: it answers a next state, the old one if the block is halted (R144), else the
one the command gives. -/
theorem whenRunning_cases {s t u : State} (h : whenRunning s t = .next u) :
    (s.err = 1#1 ∧ u = s) ∨ (s.err = 0#1 ∧ u = t) := by
  rcases err_cases s with h0 | h1
  · rw [whenRunning_running h0] at h; injection h with h; exact .inr ⟨h0, h.symm⟩
  · rw [whenRunning_halted h1] at h; injection h with h; exact .inl ⟨h1, h.symm⟩

/-- A command's step always answers a next state (R169). -/
theorem whenRunning_next (s t : State) : ∃ u, whenRunning s t = .next u := by
  rcases err_cases s with h0 | h1
  · exact ⟨t, whenRunning_running h0 t⟩
  · exact ⟨s, whenRunning_halted h1 t⟩

theorem excCode_ne_zero (e : Exc) : excCode e ≠ 0#2 := by cases e <;> decide

theorem excCode_ne_three (e : Exc) : excCode e ≠ 3#2 := by cases e <;> decide

theorem excCode_inj {e e' : Exc} (h : excCode e = excCode e') : e = e' := by
  cases e <;> cases e' <;> first | rfl | exact absurd h (by decide)

theorem isByte_iff (d : Operand) : isByte d = true ↔ d.toNat ≤ 255 := by simp [isByte]

theorem isByte_byteOperand (b : Byte) : isByte (byteOperand b) = true := by
  rw [isByte_iff]; simp [byteOperand]; omega

/-! ## The handshake -/

@[simp] theorem isReset_command (w : CmdWord) : (Edge.command w).isReset = false := rfl

@[simp] theorem acceptsAt_command (s : State) (w : CmdWord) : acceptsAt s (Edge.command w) = true := by
  simp [acceptsAt, Edge.command, State.cmdReady]

theorem acceptsAt_iff (s : State) (e : Edge) : acceptsAt s e = true ↔ e.rst = 0#1 ∧ e.cmdValid = 1#1 := by
  simp [acceptsAt, State.cmdReady]

theorem isReset_iff (e : Edge) : e.isReset = true ↔ e.rst = 1#1 := by simp [Edge.isReset]

end Sys2Proof.Laws
end

