-- ==== Sys2Proof/Laws/Exec.lean ====
section
/-! SUPPORT. Once for all commands: what `exec` can do, and what a step can do. -/

namespace Sys2Proof.Laws

open Sys2Proof.Machine

/-- The state a command leaves on a running block. -/
def effect (i : Instr) (s : State) : State :=
  match i with
  | .minit seed => s.setTriple (minitTriple seed)
  | .mix => s.setTriple (mixStep s.triple)
  | .mrnd0 => s.setTriple (mixRound s.triple mixShifts0)
  | .mrnd1 => s.setTriple (mixRound s.triple mixShifts1)
  | .mrnd2 => s.setTriple (mixRound s.triple mixShifts2)
  | .addwA imm => s.addWord .A imm
  | .addwB imm => s.addWord .B imm
  | .addwC imm => s.addWord .C imm
  | .addlA k imm => s.addLane .A k imm
  | .addlB k imm => s.addLane .B k imm
  | .addlC k imm => s.addLane .C k imm
  | .hinit => s.setH 0#32
  | .habs e => s.absorbElement e
  | .hfin => s.setH (oaatFin s.h)
  | .lrs n value => s.setR (lrs value n.toNat)

/-- Every command's step is its effect on a running block, and nothing on a halted one. -/
theorem exec_eq (i : Instr) (s : State) : exec i s = whenRunning s (effect i s) := by
  cases i <;> rfl

theorem exec_running (i : Instr) {s : State} (h : s.err = 0#1) : exec i s = .next (effect i s) := by
  rw [exec_eq, whenRunning_running h]

theorem exec_halted (i : Instr) {s : State} (h : s.err = 1#1) : exec i s = .next s := by
  rw [exec_eq, whenRunning_halted h]

theorem addLane_byte (s : State) (x : XSel) (k : Lane) {d : Operand} (h : d.toNat ≤ 255) :
    s.addLane x k d = s.setX x (s.x x + laneTerm k d) := by
  simp [State.addLane, (isByte_iff d).2 h]

theorem addLane_wide (s : State) (x : XSel) (k : Lane) {d : Operand} (h : 255 < d.toNat) :
    s.addLane x k d = s.raise .invalidInputEncoding := by
  have h' : isByte d = false := by simp [isByte, h]
  simp [State.addLane, h']

theorem absorbElement_byte (s : State) {e : Operand} (h : e.toNat ≤ 255) : s.absorbElement e = s.absorb e := by
  simp [State.absorbElement, (isByte_iff e).2 h]

theorem absorbElement_asIs (s : State) (e : Operand) (hw : s.wideElem = .asIs) : s.absorbElement e = s.absorb e := by
  simp [State.absorbElement, hw]

theorem absorbElement_reject (s : State) {e : Operand} (h : 255 < e.toNat) (hw : s.wideElem = .reject) :
    s.absorbElement e = s.raise .invalidInputEncoding := by
  have h' : isByte e = false := by simp [isByte, h]
  simp [State.absorbElement, h', hw]

/-- Everything a command can do on a running block: write A, B and C, write H, write R, or raise
InvalidInputEncoding. -/
theorem effect_cases (i : Instr) (s : State) :
    (unitOf i = .mix ∧ ∃ t, effect i s = s.setTriple t) ∨
    (unitOf i = .oaat ∧ ∃ v, effect i s = s.setH v) ∨
    (unitOf i = .lrs ∧ ∃ v, effect i s = s.setR v) ∨
    (effect i s = s.raise .invalidInputEncoding) := by
  have hx : ∀ (x : XSel) (v : Word), ∃ t, s.setX x v = s.setTriple t := by
    intro x v
    cases x
    · exact ⟨⟨v, s.b, s.c⟩, rfl⟩
    · exact ⟨⟨s.a, v, s.c⟩, rfl⟩
    · exact ⟨⟨s.a, s.b, v⟩, rfl⟩
  have hl : ∀ (x : XSel) (k : Lane) (d : Operand),
      (∃ t, s.addLane x k d = s.setTriple t) ∨ s.addLane x k d = s.raise .invalidInputEncoding := by
    intro x k d
    rcases Nat.lt_or_ge 255 d.toNat with h | h
    · exact .inr (addLane_wide s x k h)
    · rw [addLane_byte s x k h]; exact .inl (hx _ _)
  cases i with
  | minit seed => exact .inl ⟨rfl, _, rfl⟩
  | mix => exact .inl ⟨rfl, _, rfl⟩
  | mrnd0 => exact .inl ⟨rfl, _, rfl⟩
  | mrnd1 => exact .inl ⟨rfl, _, rfl⟩
  | mrnd2 => exact .inl ⟨rfl, _, rfl⟩
  | addwA imm => exact .inl ⟨rfl, hx .A _⟩
  | addwB imm => exact .inl ⟨rfl, hx .B _⟩
  | addwC imm => exact .inl ⟨rfl, hx .C _⟩
  | addlA k imm => exact (hl .A k imm).elim (fun h => .inl ⟨rfl, h⟩) (fun h => .inr (.inr (.inr h)))
  | addlB k imm => exact (hl .B k imm).elim (fun h => .inl ⟨rfl, h⟩) (fun h => .inr (.inr (.inr h)))
  | addlC k imm => exact (hl .C k imm).elim (fun h => .inl ⟨rfl, h⟩) (fun h => .inr (.inr (.inr h)))
  | hinit => exact .inr (.inl ⟨rfl, 0#32, rfl⟩)
  | habs e =>
    rcases Nat.lt_or_ge 255 e.toNat with h | h
    · cases hw : s.wideElem with
      | asIs => exact .inr (.inl ⟨rfl, _, absorbElement_asIs s e hw⟩)
      | reject => exact .inr (.inr (.inr (absorbElement_reject s h hw)))
    · exact .inr (.inl ⟨rfl, _, absorbElement_byte s h⟩)
  | hfin => exact .inr (.inl ⟨rfl, oaatFin s.h, rfl⟩)
  | lrs n value => exact .inr (.inr (.inl ⟨rfl, _, rfl⟩))

/-! ## A command's effect as a function of its own unit's registers -/

theorem addWord_fun (x : XSel) (d : Operand) :
    ∃ g : Triple → Triple, ∀ s : State, s.addWord x d = s.setTriple (g s.triple) := by
  cases x
  · exact ⟨fun t => ⟨t.a + lowWord d, t.b, t.c⟩, fun s => rfl⟩
  · exact ⟨fun t => ⟨t.a, t.b + lowWord d, t.c⟩, fun s => rfl⟩
  · exact ⟨fun t => ⟨t.a, t.b, t.c + lowWord d⟩, fun s => rfl⟩

theorem addLane_fun (x : XSel) (k : Lane) (d : Operand) :
    (∃ g : Triple → Triple, ∀ s : State, s.addLane x k d = s.setTriple (g s.triple)) ∨
    (∀ s : State, s.addLane x k d = s.raise .invalidInputEncoding) := by
  rcases Nat.lt_or_ge 255 d.toNat with h | h
  · exact .inr (fun s => addLane_wide s x k h)
  · refine .inl ?_
    cases x
    · exact ⟨fun t => ⟨t.a + laneTerm k d, t.b, t.c⟩, fun s => addLane_byte s .A k h⟩
    · exact ⟨fun t => ⟨t.a, t.b + laneTerm k d, t.c⟩, fun s => addLane_byte s .B k h⟩
    · exact ⟨fun t => ⟨t.a, t.b, t.c + laneTerm k d⟩, fun s => addLane_byte s .C k h⟩

/-- A MIX-unit command maps the triple by a function of the command alone, or always faults. -/
theorem effect_mix_fun {i : Instr} (hu : unitOf i = .mix) :
    (∃ g : Triple → Triple, ∀ s : State, effect i s = s.setTriple (g s.triple)) ∨
    (∀ s : State, effect i s = s.raise .invalidInputEncoding) := by
  cases i with
  | minit seed => exact .inl ⟨fun _ => minitTriple seed, fun s => rfl⟩
  | mix => exact .inl ⟨mixStep, fun s => rfl⟩
  | mrnd0 => exact .inl ⟨fun t => mixRound t mixShifts0, fun s => rfl⟩
  | mrnd1 => exact .inl ⟨fun t => mixRound t mixShifts1, fun s => rfl⟩
  | mrnd2 => exact .inl ⟨fun t => mixRound t mixShifts2, fun s => rfl⟩
  | addwA imm => exact .inl (addWord_fun .A imm)
  | addwB imm => exact .inl (addWord_fun .B imm)
  | addwC imm => exact .inl (addWord_fun .C imm)
  | addlA k imm => exact addLane_fun .A k imm
  | addlB k imm => exact addLane_fun .B k imm
  | addlC k imm => exact addLane_fun .C k imm
  | hinit => simp [unitOf] at hu
  | habs e => simp [unitOf] at hu
  | hfin => simp [unitOf] at hu
  | lrs n value => simp [unitOf] at hu

/-- An OAAT-unit command maps H by a function of the command alone, or, by WIDE_ELEM, faults. -/
theorem effect_oaat_fun {i : Instr} (hu : unitOf i = .oaat) (w : WideElem) :
    (∃ g : Word → Word, ∀ s : State, s.wideElem = w → effect i s = s.setH (g s.h)) ∨
    (∀ s : State, s.wideElem = w → effect i s = s.raise .invalidInputEncoding) := by
  cases i with
  | hinit => exact .inl ⟨fun _ => 0#32, fun s _ => rfl⟩
  | habs e =>
    rcases Nat.lt_or_ge 255 e.toNat with h | h
    · cases w with
      | asIs => exact .inl ⟨fun v => oaatStep v (lowWord e), fun s hw => absorbElement_asIs s e hw⟩
      | reject => exact .inr (fun s hw => absorbElement_reject s h hw)
    · exact .inl ⟨fun v => oaatStep v (lowWord e), fun s _ => absorbElement_byte s h⟩
  | hfin => exact .inl ⟨oaatFin, fun s _ => rfl⟩
  | minit seed => simp [unitOf] at hu
  | mix => simp [unitOf] at hu
  | mrnd0 => simp [unitOf] at hu
  | mrnd1 => simp [unitOf] at hu
  | mrnd2 => simp [unitOf] at hu
  | addwA imm => simp [unitOf] at hu
  | addwB imm => simp [unitOf] at hu
  | addwC imm => simp [unitOf] at hu
  | addlA k imm => simp [unitOf] at hu
  | addlB k imm => simp [unitOf] at hu
  | addlC k imm => simp [unitOf] at hu
  | lrs n value => simp [unitOf] at hu

/-- The LRS command writes R with a value of the command alone. -/
theorem effect_lrs_fun {i : Instr} (hu : unitOf i = .lrs) : ∃ v : Word, ∀ s : State, effect i s = s.setR v := by
  cases i with
  | lrs n value => exact ⟨lrs value n.toNat, fun s => rfl⟩
  | minit seed => simp [unitOf] at hu
  | mix => simp [unitOf] at hu
  | mrnd0 => simp [unitOf] at hu
  | mrnd1 => simp [unitOf] at hu
  | mrnd2 => simp [unitOf] at hu
  | addwA imm => simp [unitOf] at hu
  | addwB imm => simp [unitOf] at hu
  | addwC imm => simp [unitOf] at hu
  | addlA k imm => simp [unitOf] at hu
  | addlB k imm => simp [unitOf] at hu
  | addlC k imm => simp [unitOf] at hu
  | hinit => simp [unitOf] at hu
  | habs e => simp [unitOf] at hu
  | hfin => simp [unitOf] at hu

/-! ## The step -/

theorem step_nil {s : State} (h : s.port = []) : step s = .next s := by simp [step, h]

theorem step_cons {s : State} {e : Edge} {rest : List Edge} (h : s.port = e :: rest) :
    step s = risingEdge e (s.withPort rest) := by simp [step, h]

theorem step_command {s : State} {w : CmdWord} {rest : List Edge} (h : s.port = Edge.command w :: rest) :
    step s = acceptCommand w (s.withPort rest) := by
  rw [step_cons h, risingEdge]
  simp only [isReset_command, acceptsAt_command, Bool.false_eq_true, if_false, if_true]
  rfl

/-- What an accepted word does on a running block. -/
theorem acceptCommand_running (w : CmdWord) {s : State} (h : s.err = 0#1) :
    acceptCommand w s =
      match decode w with
      | .ok i => .next (effect i s)
      | .error e => .next (s.raise e) := by
  unfold acceptCommand
  rw [not_halted_of_running s h]
  cases decode w with
  | ok i => simpa using exec_running i h
  | error e => simp

theorem acceptCommand_halted (w : CmdWord) {s : State} (h : s.err = 1#1) : acceptCommand w s = .next s := by
  simp [acceptCommand, halted_of_err s h]

/-- Everything a step can do. -/
theorem step_cases {s t : State} (h : step s = .next t) :
    (s.port = [] ∧ t = s) ∨
    ∃ e rest, s.port = e :: rest ∧
      ((e.rst = 1#1 ∧ t = (s.withPort rest).resetEvent) ∨
       (e.rst = 0#1 ∧ (e.cmdValid = 0#1 ∨ s.err = 1#1) ∧ t = s.withPort rest) ∨
       (e.rst = 0#1 ∧ e.cmdValid = 1#1 ∧ s.err = 0#1 ∧
         ((∃ i, decode e.cmd = .ok i ∧ t = effect i (s.withPort rest)) ∨
          (∃ x, decode e.cmd = .error x ∧ t = (s.withPort rest).raise x)))) := by
  have bit : ∀ b : BitVec 1, b = 0#1 ∨ b = 1#1 := by decide
  cases hp : s.port with
  | nil => rw [step_nil hp] at h; injection h with h; exact .inl ⟨rfl, h.symm⟩
  | cons e rest =>
    refine .inr ⟨e, rest, rfl, ?_⟩
    rw [step_cons hp, risingEdge] at h
    rcases bit e.rst with hr | hr
    · have hr' : e.isReset = false := by simp [Edge.isReset, hr]
      rw [hr'] at h
      rcases bit e.cmdValid with hv | hv
      · have ha : acceptsAt (s.withPort rest) e = false := by simp [acceptsAt, hv]
        rw [ha] at h
        simp only [Bool.false_eq_true, if_false, Host.Outcome.next.injEq] at h
        exact .inr (.inl ⟨hr, .inl hv, h.symm⟩)
      · have ha : acceptsAt (s.withPort rest) e = true := (acceptsAt_iff _ _).2 ⟨hr, hv⟩
        rw [ha] at h
        simp only [Bool.false_eq_true, if_false, if_true] at h
        rcases err_cases s with h0 | h1
        · rw [acceptCommand_running e.cmd (s := s.withPort rest) h0] at h
          refine .inr (.inr ⟨hr, hv, h0, ?_⟩)
          cases hd : decode e.cmd with
          | ok i => rw [hd] at h; injection h with h; exact .inl ⟨i, rfl, h.symm⟩
          | error x => rw [hd] at h; injection h with h; exact .inr ⟨x, rfl, h.symm⟩
        · rw [acceptCommand_halted e.cmd (s := s.withPort rest) h1] at h
          injection h with h
          exact .inr (.inl ⟨hr, .inr h1, h.symm⟩)
    · have hr' : e.isReset = true := (isReset_iff e).2 hr
      rw [hr'] at h
      simp only [if_true, Host.Outcome.next.injEq] at h
      exact .inl ⟨hr, h.symm⟩

/-- An accepted word always answers a next state, and leaves the port as it is. -/
theorem acceptCommand_next (w : CmdWord) (s : State) : ∃ t, acceptCommand w s = .next t ∧ t.port = s.port := by
  rcases err_cases s with h | h
  · rw [acceptCommand_running w h]
    cases decode w with
    | error x => exact ⟨_, rfl, rfl⟩
    | ok i =>
      refine ⟨_, rfl, ?_⟩
      rcases effect_cases i s with ⟨_, t, h⟩ | ⟨_, v, h⟩ | ⟨_, v, h⟩ | h <;> rw [h] <;> rfl
  · exact ⟨s, acceptCommand_halted w h, rfl⟩

/-- Several steps: none, or one and then the others. -/
theorem run_zero (s : State) : Host.Core.run Sys2Proof.core 0 s = .next s := rfl

theorem run_succ {s t : State} (h : step s = .next t) (n : Nat) :
    Host.Core.run Sys2Proof.core (n + 1) s = Host.Core.run Sys2Proof.core n t := by
  have h' : Sys2Proof.core.step s = .next t := h
  simp only [Host.Core.run, h']

/-! ## Running a list of commands -/

theorem execAll_nil (s : State) : execAll [] s = .next s := rfl

theorem execAll_cons_running (i : Instr) (is : List Instr) {s : State} (h : s.err = 0#1) :
    execAll (i :: is) s = execAll is (effect i s) := by
  simp [execAll, exec_running i h]

theorem execAll_halted (is : List Instr) {s : State} (h : s.err = 1#1) : execAll is s = .next s := by
  induction is with
  | nil => rfl
  | cons i is ih => simp [execAll, exec_halted i h, ih]

theorem execAll_append (is js : List Instr) {s t : State} (h : execAll is s = .next t) :
    execAll (is ++ js) s = execAll js t := by
  induction is generalizing s with
  | nil => injection h with h; subst h; rfl
  | cons i is ih =>
    rcases err_cases s with h0 | h1
    · rw [execAll_cons_running i is h0] at h
      rw [List.cons_append, execAll_cons_running i (is ++ js) h0]
      exact ih h
    · rw [execAll_halted _ h1] at h
      injection h with h
      subst h
      rw [execAll_halted _ h1, execAll_halted _ h1]

end Sys2Proof.Laws
end

