-- ==== Sys2Proof/Laws/PerInstr.lean ====
section
/-! SUPPORT. Per instruction: its word has its row's opcode, and every must-be-zero bit of its row's format is zero
(30_encoding.md R51, R52). -/

namespace Sys2Proof.Laws.MatchesRow

/-- The opcode and format of a command's row (R52). -/
def rowOf : Instr → BitVec 8 × Format
  | .minit _ => (0x01#8, .S)
  | .mix => (0x04#8, .Z)
  | .mrnd0 => (0x08#8, .Z)
  | .mrnd1 => (0x09#8, .Z)
  | .mrnd2 => (0x0A#8, .Z)
  | .addwA _ => (0x10#8, .W)
  | .addwB _ => (0x11#8, .W)
  | .addwC _ => (0x12#8, .W)
  | .addlA _ _ => (0x14#8, .L)
  | .addlB _ _ => (0x15#8, .L)
  | .addlC _ _ => (0x16#8, .L)
  | .hinit => (0x20#8, .Z)
  | .habs _ => (0x21#8, .W)
  | .hfin => (0x22#8, .Z)
  | .lrs _ _ => (0x40#8, .N)

/-- The masked word of the command is its row's match value. -/
def Statement (i : Instr) : Prop :=
  encode i &&& formatMask (rowOf i).2 = fieldsWord (rowOf i).1 0 0

/-- A word whose must-be-zero bits are zero matches its row. -/
theorem of_reservedZero {op : BitVec 8} {fmt : Format} {f : Small} {d : Operand} (h : reservedZero fmt f d) :
    fieldsWord op f d &&& formatMask fmt = fieldsWord op 0 0 := by
  have := (rowMatches_iff op f d ⟨op, fmt, fun _ => .mix⟩).2 ⟨rfl, h⟩
  simpa [rowMatches] using this

theorem upper_setWidth (v : Word) : (v.setWidth 64).extractLsb' 32 32 = 0 := by
  apply BitVec.eq_of_getLsbD_eq
  intro i hi
  simp

theorem upper_lane (k : Lane) : (k.setWidth 8).extractLsb' 2 6 = 0 := by
  revert k; decide

theorem minit (seed : Word) : Statement (.minit seed) := of_reservedZero ⟨rfl, upper_setWidth seed⟩
theorem mix : Statement .mix := of_reservedZero ⟨rfl, rfl⟩
theorem mrnd0 : Statement .mrnd0 := of_reservedZero ⟨rfl, rfl⟩
theorem mrnd1 : Statement .mrnd1 := of_reservedZero ⟨rfl, rfl⟩
theorem mrnd2 : Statement .mrnd2 := of_reservedZero ⟨rfl, rfl⟩
theorem addwA (imm : Operand) : Statement (.addwA imm) := of_reservedZero (f := 0) (fmt := .W) rfl
theorem addwB (imm : Operand) : Statement (.addwB imm) := of_reservedZero (f := 0) (fmt := .W) rfl
theorem addwC (imm : Operand) : Statement (.addwC imm) := of_reservedZero (f := 0) (fmt := .W) rfl
theorem addlA (k : Lane) (imm : Operand) : Statement (.addlA k imm) := of_reservedZero (fmt := .L) (upper_lane k)
theorem addlB (k : Lane) (imm : Operand) : Statement (.addlB k imm) := of_reservedZero (fmt := .L) (upper_lane k)
theorem addlC (k : Lane) (imm : Operand) : Statement (.addlC k imm) := of_reservedZero (fmt := .L) (upper_lane k)
theorem hinit : Statement .hinit := of_reservedZero ⟨rfl, rfl⟩
theorem habs (e : Operand) : Statement (.habs e) := of_reservedZero (f := 0) (fmt := .W) rfl
theorem hfin : Statement .hfin := of_reservedZero ⟨rfl, rfl⟩
theorem lrs (n : Small) (value : Operand) : Statement (.lrs n value) := of_reservedZero (fmt := .N) trivial

end Sys2Proof.Laws.MatchesRow
end

