-- ==== Sys2Proof/Tests/Slice0.lean ====
section
/-! SUPPORT. The model's own tests: ill-formed terms that WellFormed refuses, words written out from the spec's
encodings, one-step vectors from 95_test_vectors.md, and for every statement with hypotheses a witness that meets
them. Every expected value is the spec's. -/

namespace Sys2Proof.Tests

open Sys2Proof.Machine

/-! ## Small states -/

/-- A running block with the given registers, WIDE_ELEM = as_is, and nothing offered. -/
def st (a b c h r : Word) : State :=
  { a := a, b := b, c := c, h := h, r := r, err := 0#1, ecause := 0#2, wideElem := .asIs, port := [], resets := 1 }

/-- The start state of 95_test_vectors.md section 2.5. -/
def s0 : State := st 1 2 3 4 5

/-- The same with WIDE_ELEM = reject. -/
def s0r : State := { s0 with wideElem := .reject }

/-- The same, halted by an IllegalCommand. -/
def sh : State := { s0 with err := 1#1, ecause := 1#2 }

/-- The start of the worked rounds (R91 to R94). -/
def sw : State := st 0xDEADBEEF#32 0xCAFEBABE#32 0x01234567#32 4 5

/-- A state whose next edge offers the word. -/
def offer (s : State) (w : CmdWord) : State := { s with port := [Edge.command w] }

/-- The next state of an outcome, if it has one. -/
def nextOf : Host.Outcome State Fault Refusal → Option State
  | .next s => some s
  | _ => none

/-- ERR and ECAUSE. -/
def status (s : State) : BitVec 1 × BitVec 2 := (s.err, s.ecause)

/-! ## WellFormed: for each check an ill-formed term, which it refuses -/

theorem smoke_minit_seed_above : Written.wellFormed (.minit (2 ^ 32)) = false := by decide
theorem smoke_minit_seed_negative : Written.wellFormed (.minit (-1)) = false := by decide
theorem smoke_minit_seed_largest : Written.wellFormed (.minit (2 ^ 32 - 1)) = true := by decide
theorem smoke_addw_above : Written.wellFormed (.addw .A (2 ^ 64)) = false := by decide
theorem smoke_addw_below : Written.wellFormed (.addw .C (-2 ^ 63 - 1)) = false := by decide
theorem smoke_addl_lane : Written.wellFormed (.addl .A 4 0x41) = false := by decide
theorem smoke_addl_lane_negative : Written.wellFormed (.addl .A (-1) 0x41) = false := by decide
theorem smoke_addl_byte_negative : Written.wellFormed (.addl .B 0 (-1)) = false := by decide
theorem smoke_addl_byte_above : Written.wellFormed (.addl .B 0 (2 ^ 64)) = false := by decide
theorem smoke_addl_wide_byte_encodes : Written.wellFormed (.addl .B 0 0x100) = true := by decide
theorem smoke_habs_above : Written.wellFormed (.habs (2 ^ 64)) = false := by decide
theorem smoke_lrs_amount : Written.wellFormed (.lrs 256 0) = false := by decide
theorem smoke_lrs_amount_negative : Written.wellFormed (.lrs (-1) 0) = false := by decide
theorem smoke_lrs_value : Written.wellFormed (.lrs 0 (2 ^ 64)) = false := by decide
theorem smoke_mblk_count : Written.wellFormed (.mblk [1, 2, 3]) = false := by decide
theorem smoke_mblk_byte : Written.wellFormed (.mblk [256, 0, 0, 0, 0, 0, 0, 0, 0, 0, 0, 0]) = false := by decide
theorem smoke_mtail_rem : Written.wellFormed (.mtail 13 []) = false := by decide
theorem smoke_mtail_length_zero : Written.wellFormed (.mtail 0 []) = false := by decide
theorem smoke_mtail_byte : Written.wellFormed (.mtail 13 [256]) = false := by decide
theorem smoke_mtail_legal : Written.wellFormed (.mtail 13 [0x6D]) = true := by decide
theorem smoke_mhash_empty : Written.wellFormed (.mhash 0 []) = false := by decide
theorem smoke_mhash_seed : Written.wellFormed (.mhash (2 ^ 32) [0x61]) = false := by decide
theorem smoke_hstr_byte : Written.wellFormed (.hstr [-1]) = false := by decide

/-! ## Decoding: one word per constructor, written out as `op f d` (R59, 95 section 2.4) -/

theorem test_decode_minit : decode 0x010000000000DEADBEEF#80 = .ok (.minit 0xDEADBEEF#32) := by decide
theorem test_decode_mix : decode 0x04000000000000000000#80 = .ok .mix := by decide
theorem test_decode_mrnd0 : decode 0x08000000000000000000#80 = .ok .mrnd0 := by decide
theorem test_decode_mrnd1 : decode 0x09000000000000000000#80 = .ok .mrnd1 := by decide
theorem test_decode_mrnd2 : decode 0x0A000000000000000000#80 = .ok .mrnd2 := by decide
theorem test_decode_addwA : decode 0x100000000000626F6F66#80 = .ok (.addwA 0x626F6F66#64) := by decide
theorem test_decode_addwB : decode 0x110000000000FFFFFFFF#80 = .ok (.addwB 0xFFFFFFFF#64) := by decide
theorem test_decode_addwC : decode 0x1200FFFFFFFFFFFFFFFF#80 = .ok (.addwC 0xFFFFFFFFFFFFFFFF#64) := by decide
theorem test_decode_addlA : decode 0x14000000000000000100#80 = .ok (.addlA 0 0x100#64) := by decide
theorem test_decode_addlB : decode 0x15010000000000000072#80 = .ok (.addlB 1 0x72#64) := by decide
theorem test_decode_addlC : decode 0x16030000000000000064#80 = .ok (.addlC 3 0x64#64) := by decide
theorem test_decode_hinit : decode 0x20000000000000000000#80 = .ok .hinit := by decide
theorem test_decode_habs : decode 0x21000000000000000066#80 = .ok (.habs 0x66#64) := by decide
theorem test_decode_hfin : decode 0x22000000000000000000#80 = .ok .hfin := by decide
theorem test_decode_lrs : decode 0x40FFFFFFFFFFFFFFFFFF#80 = .ok (.lrs 0xFF 0xFFFFFFFFFFFFFFFF#64) := by decide

/-- The fourteen illegal words of 95 section 2.4. -/
theorem test_decode_illegal :
    [0x00000000000000000000#80, 0x01000000000100000000#80, 0x01010000000000000000#80, 0x02000000000000000000#80,
     0x04000000000000000001#80, 0x04800000000000000000#80, 0x0B000000000000000000#80, 0x12010000000000000005#80,
     0x13000000000000000005#80, 0x16040000000000000064#80, 0x17000000000000000064#80, 0x21020000000000000066#80,
     0x23000000000000000000#80, 0x41000000000000000000#80, 0xFFFFFFFFFFFFFFFFFFFF#80].all
      (fun w => decide (decode w = .error .illegalCommand)) = true := by decide

theorem test_encode_addlC : encode (.addlC 3 0x64) = 0x16030000000000000064#80 := by decide
theorem test_encode_lrs : encode (.lrs 13 0x180000000) = 0x400D0000000180000000#80 := by decide

/-- The table's MINIT row, numbered from bit 0 of the one word, and a length no command has. -/
theorem test_decodeTableWord :
    decodeTableWord 80 0x01000000000000000000 = some (.minit 0) ∧ decodeTableWord 96 0 = none ∧
      decodeTableWord 80 0 = none := by decide

/-! ## One step of each command (95 sections 2.1 to 2.3) -/

theorem test_minit :
    (nextOf (exec (.minit 0xFFFFFFFF#32) s0)).map State.triple = some ⟨0x9E3779B9#32, 0x9E3779B9#32, 0xFFFFFFFF#32⟩ := by
  decide
theorem test_addwA_wraps :
    (nextOf (exec (.addwA 0x626F6F66#64) (st 0x9E3779B9#32 0x9E3779B9#32 0 4 5))).map State.triple =
      some ⟨0x00A6E91F#32, 0x9E3779B9#32, 0⟩ := by decide
theorem test_addwB : (nextOf (exec (.addwB 0xFFFFFFFF#64) (st 7 5 6 4 5))).map State.triple = some ⟨7, 4, 6⟩ := by decide
theorem test_addwC_upper_ignored :
    (nextOf (exec (.addwC 0x100000003#64) (st 7 5 6 4 5))).map State.triple = some ⟨7, 5, 9⟩ := by decide
theorem test_addlA_carry :
    (nextOf (exec (.addlA 0 0x66#64) (st 0x9E3779B9#32 0x9E3779B9#32 0xB 4 5))).map State.triple =
      some ⟨0x9E377A1F#32, 0x9E3779B9#32, 0xB⟩ := by decide
theorem test_addlA_top_lane_carry_lost :
    (nextOf (exec (.addlA 3 0xFF#64) (st 0x01000000#32 0 0 4 5))).map State.triple = some ⟨0, 0, 0⟩ := by decide
theorem test_addlA_not_a_byte :
    (nextOf (exec (.addlA 0 0x100#64) s0)).map (fun t => (t.triple, status t)) = some (⟨1, 2, 3⟩, (1, 2)) := by decide
theorem test_addlB :
    (nextOf (exec (.addlB 1 0x72#64) (st 0x9E3779B9#32 0x9E3779B9#32 0xB 4 5))).map State.triple =
      some ⟨0x9E3779B9#32, 0x9E37EBB9#32, 0xB⟩ := by decide
theorem test_addlC :
    (nextOf (exec (.addlC 3 0x64#64) (st 0x9E3779B9#32 0x9E3779B9#32 0xB 4 5))).map State.triple =
      some ⟨0x9E3779B9#32, 0x9E3779B9#32, 0x6400000B#32⟩ := by decide
theorem test_addlC_not_a_byte :
    (nextOf (exec (.addlC 1 0xFFFFFFFFFFFFFFFF#64) s0)).map (fun t => (t.triple, status t)) =
      some (⟨1, 2, 3⟩, (1, 2)) := by decide
theorem test_mrnd0 :
    (nextOf (exec .mrnd0 sw)).map State.triple = some ⟨0x128BB7D0#32, 0x3CF86D87#32, 0xB19EC7D3#32⟩ := by decide
theorem test_mrnd1 :
    (nextOf (exec .mrnd1 sw)).map State.triple = some ⟨0x128BACFE#32, 0x1BB1C859#32, 0xD2385E52#32⟩ := by decide
theorem test_mrnd2 :
    (nextOf (exec .mrnd2 sw)).map State.triple = some ⟨0x12AFD666#32, 0x087206F1#32, 0xE60178F4#32⟩ := by decide
theorem test_mix :
    (nextOf (exec .mix sw)).map State.triple = some ⟨0x82E14B78#32, 0x67887C53#32, 0xACCF9594#32⟩ := by decide
theorem test_mix_inverse :
    mixStepInv ⟨0x82E14B78#32, 0x67887C53#32, 0xACCF9594#32⟩ = ⟨0xDEADBEEF#32, 0xCAFEBABE#32, 0x01234567#32⟩ := by decide
theorem test_hinit : (nextOf (exec .hinit s0)).map State.h = some 0 := by decide
theorem test_habs_byte : (nextOf (exec (.habs 0x66#64) (st 1 2 3 0 5))).map State.h = some 0x00019E07#32 := by decide
theorem test_habs_logical_shift :
    (nextOf (exec (.habs 0#64) (st 1 2 3 0x80000000#32 5))).map State.h = some 0x82000000#32 := by decide
theorem test_habs_as_is :
    (nextOf (exec (.habs 0x20AC#64) (st 1 2 3 0x12345678#32 5))).map (fun t => (t.h, status t)) =
      some (0xE7814338#32, (0, 0)) := by decide
theorem test_habs_reject :
    (nextOf (exec (.habs 0x100#64) s0r)).map (fun t => (t.h, status t)) = some (4, (1, 2)) := by decide
theorem test_hfin : (nextOf (exec .hfin (st 1 2 3 0xCD980619#32 5))).map State.h = some 0xF952FDE7#32 := by decide
theorem test_hfin_top_bit : (nextOf (exec .hfin (st 1 2 3 0x80000000#32 5))).map State.h = some 0x80100000#32 := by decide
theorem test_lrs_reduces_first :
    (nextOf (exec (.lrs 13 0x180000000#64) s0)).map State.r = some 0x00040000#32 := by decide
theorem test_lrs_by_width : (nextOf (exec (.lrs 32 0xFFFFFFFF#64) s0)).map State.r = some 0 := by decide

/-! ## Faults, halt and reset (95 section 2.5) -/

theorem test_illegal_word_faults :
    (nextOf (step (offer s0 0x02000000000000000000#80))).map (fun t => (t.triple, t.h, t.r, status t)) =
      some (⟨1, 2, 3⟩, 4, 5, (1, 1)) := by decide
theorem test_decode_fault_wins :
    (nextOf (step (offer s0 0x14040000000000000100#80))).map status = some (1, 1) := by decide
theorem test_halted_discards :
    nextOf (step (offer sh 0x14000000000000000100#80)) = some sh := by decide
theorem test_reset_recovers :
    (nextOf (step { sh with port := [⟨1#1, 1#1, 0x02000000000000000000#80⟩] })).map status = some (0, 0) := by decide
theorem test_idle_edge : nextOf (step { s0 with port := [Edge.idle] }) = some s0 := by decide
theorem test_first_step_after_reset :
    (nextOf (step (State.reset.withFetchWord 80 0x01000000000000000000))).map State.triple =
      some ⟨0x9E3779B9#32, 0x9E3779B9#32, 0⟩ := by decide

/-! ## The host sequences (95 sections 1.2, 1.3, 2.2.6, 3) -/

/-- "foobar". -/
def foobar : List Byte := [0x66, 0x6F, 0x6F, 0x62, 0x61, 0x72]

/-- "abcdefghijklm": one full block and a tail of one byte. -/
def thirteen : List Byte := [0x61, 0x62, 0x63, 0x64, 0x65, 0x66, 0x67, 0x68, 0x69, 0x6A, 0x6B, 0x6C, 0x6D]

/-- "hello world". -/
def helloWorld : List Byte := [0x68, 0x65, 0x6C, 0x6C, 0x6F, 0x20, 0x77, 0x6F, 0x72, 0x6C, 0x64]

theorem test_mixhash_foobar : mixhash foobar 0 = 0x9D3FFA02#32 := by decide
theorem test_mixhash_hello_world : mixhash helloWorld 0 = 0x1AA919E6#32 := by decide
theorem test_mixhash_twelve : mixhash (thirteen.take 12) 0 = 0x0B1B3EA5#32 := by decide
theorem test_mixhash_thirteen : mixhash thirteen 0x12345678#32 = 0x76720168#32 := by decide
theorem test_ooat_foobar : ooat foobar = 0xF952FDE7#32 := by decide
theorem test_ooat_hello_world : ooat helloWorld = 0x3E4A5A57#32 := by decide
/-- Program P1 of 95 section 3. -/
theorem test_mhash_foobar_commands :
    mhash 0 foobar = [.minit 0, .addwC 6, .addlB 1 0x72, .addlB 0 0x61, .addlA 3 0x62, .addlA 2 0x6F,
      .addlA 1 0x6F, .addlA 0 0x66, .mix] := by decide
/-- A call without a seed is program P1, which begins with `MINIT 0` (R113). -/
theorem test_mixhash_without_seed :
    mixhashCommands foobar none = [.minit 0, .addwC 6, .addlB 1 0x72, .addlB 0 0x61, .addlA 3 0x62, .addlA 2 0x6F,
      .addlA 1 0x6F, .addlA 0 0x66, .mix] := by decide
/-- Program P3 of 95 section 3. -/
theorem test_mhash_thirteen_commands :
    mhash 0x12345678#32 thirteen = [.minit 0x12345678#32, .addwA 0x64636261#64, .addwB 0x68676665#64,
      .addwC 0x6C6B6A69#64, .mix, .addwC 13, .addlA 0 0x6D, .mix] := by decide
/-- The longest tail: the eleven rows of R116 from the top down (program P4's MixHash commands). -/
theorem test_tail_of_eleven :
    tailCommands helloWorld = [.addlC 3 0x64, .addlC 2 0x6C, .addlC 1 0x72, .addlB 3 0x6F, .addlB 2 0x77,
      .addlB 1 0x20, .addlB 0 0x6F, .addlA 3 0x6C, .addlA 2 0x6C, .addlA 1 0x65, .addlA 0 0x68] := by decide

/-! ## The assembler's text (R57, R59) -/

/-- `LRS 13, 0x1_8000_0000 ; x`. -/
theorem test_assemble_lrs :
    assembleLine ['L', 'R', 'S', ' ', '1', '3', ',', ' ', '0', 'x', '1', '_', '8', '0', '0', '0', '_', '0', '0', '0',
      '0', ' ', ';', ' ', 'x'] = some [.lrs 13 0x180000000#64] := by decide
/-- `ADDW.C -1` encodes as -1 + 2^64. -/
theorem test_assemble_negative :
    assembleLine ['A', 'D', 'D', 'W', '.', 'C', ' ', '-', '1'] = some [.addwC 0xFFFFFFFFFFFFFFFF#64] := by decide
/-- `ADDL.A 4, 0x41` is refused. -/
theorem test_assemble_refuses_lane :
    assembleLine ['A', 'D', 'D', 'L', '.', 'A', ' ', '4', ',', ' ', '0', 'x', '4', '1'] = none := by decide
/-- `HSTR "a;"`: a semicolon inside a string starts no comment. -/
theorem test_assemble_string :
    assembleLine ['H', 'S', 'T', 'R', ' ', '"', 'a', ';', '"'] = some [.hinit, .habs 0x61, .habs 0x3B, .hfin] := by decide
/-- `MTAIL 13; 0x6D`. -/
theorem test_assemble_mtail :
    assembleLine ['M', 'T', 'A', 'I', 'L', ' ', '1', '3', ';', ' ', '0', 'x', '6', 'D'] =
      some [.addwC 13, .addlA 0 0x6D, .mix] := by decide
/-- A comment line and `MIX` give one word. -/
theorem test_assemble_text :
    assembleText [[';', ' ', 'x'], ['M', 'I', 'X']] = some [0x04000000000000000000#80] := by decide

/-! ## Witnesses: a state and operands that meet the hypotheses of each statement -/

theorem witness_ResetHasPriorityAndAloneLeavesHalt :
    let s := { sh with port := [Edge.reset] }
    s.err = 1#1 ∧ (nextOf (step s)).map State.err = some 0#1 ∧ s.port = Edge.reset :: [] ∧ Edge.reset.rst = 1#1 := by
  decide
theorem witness_ResetEventReplacesAllState :
    ({ s0 with port := [Edge.reset] } : State).port = Edge.reset :: [] ∧ Edge.reset.rst = 1#1 := by decide
theorem witness_EdgeWithoutCommandChangesNothing :
    ({ s0 with port := [Edge.idle] } : State).port = Edge.idle :: [] ∧ Edge.idle.rst = 0#1 ∧
      Edge.idle.cmdValid = 0#1 := by decide
theorem witness_EveryStepTerminates :
    (Edge.command 0).cmdValid = 1#1 ∧ (⟨1#1, 1#1, 0#80⟩ : Edge).cmdValid = 1#1 ∧
      (offer sh 0).port = commandEdges [0#80] ++ [] := by decide
theorem witness_StepExecutesDecodedCommand :
    let e := Edge.command 0x04000000000000000000#80
    (offer s0 0x04000000000000000000#80).port = e :: [] ∧ e.rst = 0#1 ∧ e.cmdValid = 1#1 ∧ decode e.cmd = .ok .mix := by
  decide
theorem witness_HaltedBlockDiscardsCommands :
    sh.err = 1#1 ∧ (offer sh 0).port = Edge.command 0 :: [] ∧ (∀ e ∈ (offer sh 0).port, e.rst = 0#1) ∧
      nextOf (Host.Core.run Sys2Proof.core 1 (offer sh 0)) = some sh := by decide
theorem witness_StatusInvariantIsKept :
    (offer s0 0).StatusInv ∧ nextOf (step (offer s0 0)) = some { s0 with err := 1#1, ecause := 1#2 } := by decide
theorem witness_DecoderTakesTheOneMatchingRow :
    (0x04000000000000000000#80 &&& formatMask .Z = fieldsWord 0x04#8 0 0) ∧
      (opcodeTable.map (fun row => decide (0#80 &&& formatMask row.format ≠ fieldsWord row.op 0 0))).all id = true ∧
      sh.err = 1#1 := by decide
theorem witness_IllegalCommandExactlyOnIllegalWords :
    s0.err = 0#1 ∧ (offer s0 0).port = Edge.command 0 :: [] ∧
      (0x40FFFFFFFFFFFFFFFFFF#80).toNat / 2 ^ 72 = 0x40 := by decide
theorem witness_EncodeOfDecodeIsIdentity : decode 0x16030000000000000064#80 = .ok (.addlC 3 0x64#64) := by decide
theorem witness_running : s0.err = 0#1 ∧ s0r.err = 0#1 ∧ sw.err = 0#1 := by decide
theorem witness_MinitStartsContext : s0.err = 0#1 := by decide
theorem witness_AddwAddsModulo : s0.err = 0#1 := by decide
theorem witness_AddlAddsByteIntoLane : s0.err = 0#1 ∧ (255#64).toNat ≤ 255 ∧ (0#64).toNat ≤ 255 := by decide
theorem witness_AddlTrapsOnNonByte : s0.err = 0#1 ∧ 255 < (256#64).toNat ∧ 255 < (0xFFFFFFFFFFFFFFFF#64).toNat := by decide
theorem witness_MrndAppliesItsRound : sw.err = 0#1 := by decide
theorem witness_MixAppliesThreeRounds : sw.err = 0#1 := by decide
theorem witness_MixFixesTheZeroTriple : (st 0 0 0 4 5).a = 0#32 ∧ (st 0 0 0 4 5).b = 0#32 ∧ (st 0 0 0 4 5).c = 0#32 := by
  decide
theorem witness_AddsCommute : Spec.IsAdd (.addwA 1) ∧ Spec.IsAdd (.addlA 3 255#64) := by
  exact ⟨trivial, by show (255#64).toNat ≤ 255; decide⟩
theorem witness_AddsMerge : (255#64).toNat ≤ 255 ∧ (0#64).toNat ≤ 255 := by decide
theorem witness_HinitClearsH : s0.err = 0#1 := by decide
theorem witness_HabsAbsorbsByte : s0r.err = 0#1 ∧ (255#64).toNat ≤ 255 := by decide
theorem witness_HabsAsIsAbsorbsWideElement : s0.err = 0#1 ∧ s0.wideElem = .asIs ∧ 255 < (256#64).toNat := by decide
theorem witness_HabsRejectTrapsOnWideElement : s0r.err = 0#1 ∧ s0r.wideElem = .reject ∧ 255 < (256#64).toNat := by decide
theorem witness_HfinFinishes : s0.err = 0#1 := by decide
theorem witness_ZeroBytesHaveDigestZero : s0.err = 0#1 := by decide
theorem witness_LrsShiftsTheReducedValue : s0.err = 0#1 := by decide
theorem witness_LrsCornerCases :
    s0.err = 0#1 ∧ 32 ≤ (32#8).toNat ∧ 32 ≤ (255#8).toNat ∧ (32#8).toNat ≤ 32 ∧ (0#8).toNat ≤ 32 ∧
      (0x180000000#64).toNat % 2 ^ 32 = (0x80000000#64).toNat % 2 ^ 32 := by decide

/-- A word offered to a running block: the hypothesis of every statement about a word at the port. -/
theorem witness_Offered (op : BitVec 8) (f : Small) (d : Operand) :
    Spec.Offered (offer s0 (op ++ f ++ d)) op f d [] := ⟨rfl, rfl⟩
theorem witness_MinitWordAtThePort :
    Spec.Offered (offer s0 0x010000000000FFFFFFFF#80) 0x01#8 0 0xFFFFFFFF#64 [] ∧
      Spec.Offered (offer s0 0x01000000000100000000#80) 0x01#8 0 0x100000000#64 [] :=
  ⟨⟨rfl, rfl⟩, ⟨rfl, rfl⟩⟩
theorem witness_AddwWordsAtThePort :
    Spec.Offered (offer s0 0x10000000000000000001#80) 0x10#8 0 1 [] ∧
      Spec.Offered (offer s0 0x11010000000000000001#80) 0x11#8 1 1 [] ∧
      Spec.Offered (offer s0 0x1200FFFFFFFFFFFFFFFF#80) 0x12#8 0 0xFFFFFFFFFFFFFFFF#64 [] :=
  ⟨⟨rfl, rfl⟩, ⟨rfl, rfl⟩, ⟨rfl, rfl⟩⟩
theorem witness_AddlWordsAtThePort :
    Spec.Offered (offer s0 0x140300000000000000FF#80) 0x14#8 3 0xFF#64 [] ∧
      Spec.Offered (offer s0 0x15030000000000000100#80) 0x15#8 3 0x100#64 [] ∧
      Spec.Offered (offer s0 0x16040000000000000100#80) 0x16#8 4 0x100#64 [] :=
  ⟨⟨rfl, rfl⟩, ⟨rfl, rfl⟩, ⟨rfl, rfl⟩⟩
theorem witness_MixRoundWordsAtThePort :
    Spec.Offered (offer sw 0x08000000000000000000#80) 0x08#8 0 0 [] ∧
      Spec.Offered (offer sw 0x09000000000000000001#80) 0x09#8 0 1 [] ∧
      Spec.Offered (offer sw 0x0A010000000000000000#80) 0x0A#8 1 0 [] ∧
      Spec.Offered (offer sw 0x04000000000000000000#80) 0x04#8 0 0 [] := ⟨⟨rfl, rfl⟩, ⟨rfl, rfl⟩, ⟨rfl, rfl⟩, ⟨rfl, rfl⟩⟩
theorem witness_HinitHfinWordsAtThePort :
    Spec.Offered (offer s0 0x20000000000000000000#80) 0x20#8 0 0 [] ∧
      Spec.Offered (offer s0 0x22000000000000000001#80) 0x22#8 0 1 [] :=
  ⟨⟨rfl, rfl⟩, ⟨rfl, rfl⟩⟩
theorem witness_HabsWordAtThePort :
    Spec.Offered (offer s0r 0x21000000000000000100#80) 0x21#8 0 0x100#64 [] ∧ s0r.wideElem = .reject ∧
      Spec.Offered (offer s0 0x21000000000000000100#80) 0x21#8 0 0x100#64 [] ∧
      Spec.Offered (offer s0 0x21020000000000000066#80) 0x21#8 2 0x66#64 [] :=
  ⟨⟨rfl, rfl⟩, rfl, ⟨rfl, rfl⟩, ⟨rfl, rfl⟩⟩
theorem witness_LrsWordAtThePort : Spec.Offered (offer s0 0x40FFFFFFFFFFFFFFFFFF#80) 0x40#8 0xFF 0xFFFFFFFFFFFFFFFF#64 [] :=
  ⟨rfl, rfl⟩

theorem witness_UnitsAreIndependent :
    nextOf (exec .mix sw) ≠ none ∧ unitOf .mix = .mix ∧ nextOf (exec .hinit s0) ≠ none ∧ unitOf .hinit = .oaat ∧
      nextOf (exec (.lrs 0 7) s0) ≠ none ∧ unitOf (.lrs 0 7) = .lrs ∧
      (nextOf (exec (.addlA 0 0x100#64) s0)).map State.err = some 1#1 ∧ s0.err ≠ 1#1 := by decide
theorem witness_FaultsArePrecise :
    (offer s0 0).err = 0#1 ∧ (nextOf (step (offer s0 0))).map State.err = some 1#1 := by decide
theorem witness_InvalidInputExactlyOnNonBytes :
    s0r.err = 0#1 ∧ Spec.InvalidInput s0r.wideElem (.habs 256#64) ∧ ¬ Spec.InvalidInput s0.wideElem (.habs 256#64) ∧
      Spec.InvalidInput s0.wideElem (.addlB 3 256#64) ∧ ¬ Spec.InvalidInput s0.wideElem (.addlB 3 255#64) := by
  refine ⟨by decide, ⟨by decide, rfl⟩, fun h => ?_, ?_, fun h => ?_⟩
  · exact absurd h.2 (by decide)
  · show 255 < (256#64).toNat
    decide
  · have h' : 255 < (255#64).toNat := h
    exact absurd h' (by decide)
theorem witness_UnitsReadOnlyTheirOwnRegisters :
    let s := st 1 2 3 4 5
    let s' := st 1 2 3 8 9
    s.err = s'.err ∧ s.ecause = s'.ecause ∧ s.wideElem = s'.wideElem ∧ s.triple = s'.triple ∧
      (st 1 2 3 4 5).h = (st 6 7 8 4 9).h ∧ nextOf (exec .mix s) ≠ none ∧ nextOf (exec .hfin s) ≠ none ∧
      nextOf (exec (.lrs 1 1) s) ≠ none := by decide
theorem witness_CommandsOfDifferentUnitsCommute :
    unitOf .mix ≠ unitOf (.habs 0x66) ∧ ¬ Spec.InvalidInput s0.wideElem .mix ∧
      ¬ Spec.InvalidInput s0.wideElem (.habs 0x66) :=
  ⟨by decide, fun h => h, fun h => absurd h.2 (by decide)⟩
theorem witness_MixTripleCanBeRestored : s0.err = 0#1 := by decide
theorem witness_FullBlockAddsWordsAndMixes : s0.err = 0#1 := by decide
theorem witness_TailTableHasItsClosedForm :
    s0.err = 0#1 ∧ helloWorld.length ≤ 11 ∧ helloWorld.length = 11 ∧ ([] : List Byte).length ≤ 11 := by decide
theorem witness_MixhashSequenceComputesMixhash :
    let s := { s0 with port := commandEdges ((mixhashCommands foobar none).map encode) ++ [Edge.idle] }
    foobar ≠ [] ∧ s.err = 0#1 ∧ s.port = commandEdges ((mixhashCommands foobar none).map encode) ++ [Edge.idle] :=
  ⟨by decide, rfl, rfl⟩
theorem witness_OoatSequenceComputesOoat :
    let s := { s0r with port := commandEdges ((ooatCommands foobar).map encode) ++ [] }
    s.err = 0#1 ∧ s.port = commandEdges ((ooatCommands foobar).map encode) ++ [] := ⟨rfl, rfl⟩
theorem witness_AssemblerAcceptsStatedRanges :
    (-2 ^ 63 : Int) ≤ -1 ∧ (-1 : Int) < 0 ∧ (-2 ^ 63 : Int) ≤ -2 ^ 63 ∧ (-2 ^ 63 : Int) < 0 := by decide
theorem witness_MixhashWithoutSeedUsesZero : foobar ≠ [] := by decide
theorem witness_AssemblerEncodesNonNegativeOperands :
    0 < 2 ^ 32 ∧ 2 ^ 32 - 1 < 2 ^ 32 ∧ 0 < 2 ^ 64 ∧ 2 ^ 64 - 1 < 2 ^ 64 ∧ (0 : Nat) ≤ 3 ∧ 3 ≤ 3 := by decide
theorem witness_AssemblerExpandsPseudoInstructions :
    (thirteen.take 12).length = 12 ∧ (1 ≤ 11 ∧ 11 % 12 = helloWorld.length) ∧ (1 ≤ 12 ∧ 12 % 12 = ([] : List Byte).length) ∧
      foobar ≠ [] := by decide

end Sys2Proof.Tests
end

section
/-! PROOFS. Noninterference between the units (00_scope.md R2, R3): what a command does to its unit's registers and
to the fault latch is a function of those registers, WIDE_ELEM and the command. -/

namespace Sys2Proof.Proofs

open Sys2Proof.Machine Sys2Proof.Laws

@[simp] theorem triple_setTriple (s : State) (x : Triple) : (s.setTriple x).triple = x := rfl

@[simp] theorem triple_raise (s : State) (e : Exc) : (s.raise e).triple = s.triple := rfl

/-- Two blocks with the same ERR take a command alike: both discard it (R144), or both take its effect. -/
theorem exec_cases_of_err_eq {i : Instr} {s s' t t' : State} (herr : s.err = s'.err)
    (ht : exec i s = .next t) (ht' : exec i s' = .next t') :
    (s.err = 1#1 ∧ t = s ∧ t' = s') ∨ (s.err = 0#1 ∧ t = effect i s ∧ t' = effect i s') := by
  rw [exec_eq] at ht ht'
  obtain ⟨h1, rfl⟩ | ⟨h0, rfl⟩ := whenRunning_cases ht
  · rw [whenRunning_halted (herr ▸ h1)] at ht'
    injection ht' with ht'
    exact .inl ⟨h1, rfl, ht'.symm⟩
  · rw [whenRunning_running (herr ▸ h0)] at ht'
    injection ht' with ht'
    exact .inr ⟨h0, rfl, ht'.symm⟩

section
variable {i : Instr} {s s' : State} (herr : s.err = s'.err) (hcause : s.ecause = s'.ecause)
include herr hcause

/-- The effect of a MIX-unit command on A, B, C and the fault latch needs agreement on these alone. -/
theorem effect_mix_agree (hu : unitOf i = .mix) (htriple : s.triple = s'.triple) :
    (effect i s).triple = (effect i s').triple ∧ (effect i s).err = (effect i s').err ∧
      (effect i s).ecause = (effect i s').ecause := by
  obtain ⟨g, hg⟩ | hfault := effect_mix_fun hu
  · simp [hg, htriple, herr, hcause]
  · simp [hfault, htriple]

/-- The effect of an OAAT-unit command on H and the fault latch needs agreement on these and on WIDE_ELEM, which
decides whether HABS faults (R103). -/
theorem effect_oaat_agree (hu : unitOf i = .oaat) (hwide : s.wideElem = s'.wideElem) (hh : s.h = s'.h) :
    (effect i s).h = (effect i s').h ∧ (effect i s).err = (effect i s').err ∧
      (effect i s).ecause = (effect i s').ecause := by
  obtain ⟨g, hg⟩ | hfault := effect_oaat_fun hu s'.wideElem
  · simp [hg s hwide, hg s' rfl, hh, herr, hcause]
  · simp [hfault s hwide, hfault s' rfl, hh]

/-- The effect of LRS on R and the fault latch reads no data register (R71). -/
theorem effect_lrs_agree (hu : unitOf i = .lrs) :
    (effect i s).r = (effect i s').r ∧ (effect i s).err = (effect i s').err ∧
      (effect i s).ecause = (effect i s').ecause := by
  obtain ⟨v, hv⟩ := effect_lrs_fun hu
  simp [hv, herr, hcause]

end

/-- Settles O48: both blocks discard the command, or each takes its effect, which is a function of the unit's own
registers. -/
theorem unitsReadOnlyTheirOwnRegisters : Obligations.UnitsReadOnlyTheirOwnRegisters := by
  unfold Obligations.UnitsReadOnlyTheirOwnRegisters
  intro i s s' t t' herr hcause hwide ht ht'
  obtain ⟨h1, rfl, rfl⟩ | ⟨-, rfl, rfl⟩ := exec_cases_of_err_eq herr ht ht'
  · have hrunning : t.err ≠ 0#1 := by simp [h1]
    exact ⟨fun _ htriple => ⟨htriple, herr, hcause⟩, fun _ hh => ⟨hh, herr, hcause⟩, fun _ h0 => absurd h0 hrunning⟩
  · exact ⟨effect_mix_agree herr hcause, fun hu => effect_oaat_agree herr hcause hu hwide,
      fun hu _ => effect_lrs_agree herr hcause hu⟩

end Sys2Proof.Proofs
end

section
/-! PROOFS. One rising edge (10_state.md R27, R28), the output ports and the reset values (R28 to R30), and the
invariant of the status registers over every step (R23). -/

namespace Sys2Proof.Proofs

open Sys2Proof.Machine Sys2Proof.Laws

/-! ## One rising edge without a reset -/

theorem isReset_eq_false {e : Edge} (hr : e.rst = 0#1) : e.isReset = false := by simp [Edge.isReset, hr]

theorem risingEdge_idle {e : Edge} (hr : e.rst = 0#1) (hv : e.cmdValid = 0#1) (s : State) :
    risingEdge e s = .next s := by
  have hno : acceptsAt s e = false := by simp [acceptsAt, hv]
  simp [risingEdge, isReset_eq_false hr, hno]

theorem risingEdge_accepts {e : Edge} (hr : e.rst = 0#1) (hv : e.cmdValid = 1#1) (s : State) :
    risingEdge e s = acceptCommand e.cmd s := by
  have hyes : acceptsAt s e = true := (acceptsAt_iff s e).2 ⟨hr, hv⟩
  simp [risingEdge, isReset_eq_false hr, hyes]

/-- A word that decodes is executed, halted or not: `exec` itself discards a command while ERR = 1. -/
theorem acceptCommand_of_decode {w : CmdWord} {i : Instr} (hd : decode w = .ok i) (s : State) :
    acceptCommand w s = exec i s := by
  rcases err_cases s with h0 | h1
  · rw [acceptCommand_running w h0, hd, exec_running i h0]
  · rw [acceptCommand_halted w h1, exec_halted i h1]

/-- Settles O4: the edge is taken from the port, and it accepts no command. -/
theorem edgeWithoutCommandChangesNothing : Obligations.EdgeWithoutCommandChangesNothing := by
  unfold Obligations.EdgeWithoutCommandChangesNothing
  intro s e rest hport hr hv
  exact (step_cons hport).trans (risingEdge_idle hr hv (s.withPort rest))

/-- Settles O6: the edge accepts its word, and an accepted word that decodes is executed. -/
theorem stepExecutesDecodedCommand : Obligations.StepExecutesDecodedCommand := by
  unfold Obligations.StepExecutesDecodedCommand
  intro s e rest i hport hr hv hd
  calc step s
      _ = risingEdge e (s.withPort rest) := step_cons hport
      _ = acceptCommand e.cmd (s.withPort rest) := risingEdge_accepts hr hv _
      _ = exec i (s.withPort rest) := acceptCommand_of_decode hd _

/-- Settles O10: each port is a plain wire from its register, and `cmd_ready` is constant. -/
theorem outputPortsShowRegisters : Obligations.OutputPortsShowRegisters := by
  unfold Obligations.OutputPortsShowRegisters
  intro s
  exact ⟨rfl, rfl, rfl, rfl, rfl, rfl, rfl, rfl⟩

/-! ## The invariant of ERR and ECAUSE -/

/-- The invariant reads ERR and ECAUSE alone. -/
theorem statusInv_of_eq {s t : State} (herr : t.err = s.err) (hcause : t.ecause = s.ecause) (hs : s.StatusInv) :
    t.StatusInv := by
  simpa [State.StatusInv, herr, hcause] using hs

theorem statusInv_of_cleared {s : State} (herr : s.err = 0#1) (hcause : s.ecause = 0#2) : s.StatusInv := by
  simp [State.StatusInv, herr, hcause]

/-- Fault entry meets the invariant from any state: the recorded cause is neither 0 nor 3. -/
theorem statusInv_raise (s : State) (x : Exc) : (s.raise x).StatusInv := by
  simp [State.StatusInv, excCode_ne_zero, excCode_ne_three]

/-- A command leaves the fault latch as it is, or takes the fault entry (R143). -/
theorem effect_latch_cases (i : Instr) (s : State) :
    ((effect i s).err = s.err ∧ (effect i s).ecause = s.ecause) ∨ effect i s = s.raise .invalidInputEncoding := by
  obtain ⟨-, x, h⟩ | ⟨-, v, h⟩ | ⟨-, v, h⟩ | h := effect_cases i s
  · left; simp [h]
  · left; simp [h]
  · left; simp [h]
  · exact .inr h

theorem statusInv_effect (i : Instr) {s : State} (hs : s.StatusInv) : (effect i s).StatusInv := by
  obtain ⟨herr, hcause⟩ | hfault := effect_latch_cases i s
  · exact statusInv_of_eq herr hcause hs
  · rw [hfault]; exact statusInv_raise s .invalidInputEncoding

/-- Settles O1: both are the values R29 gives. -/
theorem resetStateIsNotHalted : Obligations.ResetStateIsNotHalted := by
  unfold Obligations.ResetStateIsNotHalted
  exact ⟨rfl, rfl⟩

/-- Settles O9: after reset ERR and ECAUSE are both 0. -/
theorem resetMeetsStatusInvariant : Obligations.ResetMeetsStatusInvariant := by
  unfold Obligations.ResetMeetsStatusInvariant
  exact statusInv_of_cleared resetStateIsNotHalted.1 resetStateIsNotHalted.2

/-- Settles O8, by what a step can do: nothing, a reset event, an edge that is only taken, a command, or a word that
raises IllegalCommand. -/
theorem statusInvariantIsKept : Obligations.StatusInvariantIsKept := by
  unfold Obligations.StatusInvariantIsKept
  intro s t hs ht
  obtain ⟨-, rfl⟩ | ⟨e, rest, -, hedge⟩ := step_cases ht
  · exact hs
  have htaken : (s.withPort rest).StatusInv := statusInv_of_eq rfl rfl hs
  obtain ⟨-, rfl⟩ | ⟨-, -, rfl⟩ | ⟨-, -, -, ⟨i, -, rfl⟩ | ⟨x, -, rfl⟩⟩ := hedge
  · exact statusInv_of_cleared rfl rfl
  · exact htaken
  · exact statusInv_effect i htaken
  · exact statusInv_raise _ x

end Sys2Proof.Proofs
end

section
/-! PROOFS. The frame of a command (10_state.md R22): what it leaves unchanged, by its unit, and when it faults. -/

namespace Sys2Proof.Proofs

open Sys2Proof.Machine Sys2Proof.Laws

/-- What one command can do: a halted block discards it (R144), a running block takes its effect. -/
theorem exec_cases {i : Instr} {s t : State} (h : exec i s = .next t) :
    (s.err = 1#1 ∧ t = s) ∨ (s.err = 0#1 ∧ t = effect i s) :=
  whenRunning_cases (exec_eq i s ▸ h)

theorem effect_mix_frame {i : Instr} (hu : unitOf i = .mix) (s : State) :
    (effect i s).h = s.h ∧ (effect i s).r = s.r := by
  obtain ⟨g, hg⟩ | hfault := effect_mix_fun hu
  · simp [hg]
  · simp [hfault]

theorem effect_oaat_frame {i : Instr} (hu : unitOf i = .oaat) (s : State) :
    (effect i s).a = s.a ∧ (effect i s).b = s.b ∧ (effect i s).c = s.c ∧ (effect i s).r = s.r := by
  obtain ⟨g, hg⟩ | hfault := effect_oaat_fun hu s.wideElem
  · simp [hg s rfl]
  · simp [hfault s rfl]

theorem effect_lrs_frame {i : Instr} (hu : unitOf i = .lrs) (s : State) :
    (effect i s).a = s.a ∧ (effect i s).b = s.b ∧ (effect i s).c = s.c ∧ (effect i s).h = s.h ∧
      (effect i s).err = s.err ∧ (effect i s).ecause = s.ecause := by
  obtain ⟨v, hv⟩ := effect_lrs_fun hu
  simp [hv]

/-- Only fault entry changes ERR (R143). -/
theorem effect_eq_raise_of_err_ne {i : Instr} {s : State} (hne : (effect i s).err ≠ s.err) :
    effect i s = s.raise .invalidInputEncoding :=
  (effect_latch_cases i s).resolve_left fun hkept => hne hkept.1

theorem effect_fault_frame {i : Instr} {s : State} (hne : (effect i s).err ≠ s.err) :
    (effect i s).a = s.a ∧ (effect i s).b = s.b ∧ (effect i s).c = s.c ∧ (effect i s).h = s.h ∧
      (effect i s).r = s.r := by
  simp [effect_eq_raise_of_err_ne hne]

/-- No command touches the host's side of the port or the model's own fields. -/
theorem effect_model_frame (i : Instr) (s : State) :
    (effect i s).port = s.port ∧ (effect i s).wideElem = s.wideElem ∧ (effect i s).resets = s.resets := by
  obtain ⟨-, x, h⟩ | ⟨-, v, h⟩ | ⟨-, v, h⟩ | h := effect_cases i s <;> simp [h]

/-- Settles O45: a halted block keeps its whole state, and a running block takes an effect with the frame of its
unit. -/
theorem unitsAreIndependent : Obligations.UnitsAreIndependent := by
  unfold Obligations.UnitsAreIndependent
  intro i s t ht
  obtain ⟨-, rfl⟩ | ⟨-, rfl⟩ := exec_cases ht
  · simp
  · exact ⟨fun hu => effect_mix_frame hu s, fun hu => effect_oaat_frame hu s, fun hu => effect_lrs_frame hu s,
      effect_fault_frame, effect_model_frame i s⟩

end Sys2Proof.Proofs
end

section
/-! PROOFS. Byte order (20_memory.md R42): a word assembled from its four message bytes, as a sum of lanes, as a number
and as a concatenation. -/

namespace Sys2Proof.Proofs

open Sys2Proof.Machine Sys2Proof.Laws

/-- A concatenation as a number: the high part moves above the low one, and nothing carries. -/
theorem append_toNat {v w : Nat} (x : BitVec v) (y : BitVec w) : (x ++ y).toNat = x.toNat * 2 ^ w + y.toNat := by
  rw [BitVec.toNat_append, ← Nat.shiftLeft_add_eq_or_of_lt y.isLt, Nat.shiftLeft_eq]

/-- Byte k of the four goes to lane k (R13, R42). -/
theorem le32_eq_sum_laneTerm (b0 b1 b2 b3 : Byte) :
    le32 b0 b1 b2 b3 = laneTerm 0 (byteOperand b0) + laneTerm 1 (byteOperand b1) + laneTerm 2 (byteOperand b2) +
      laneTerm 3 (byteOperand b3) := by
  simp [le32, laneTerm_byteOperand]

/-- A message byte in its lane loses no bit (R13). -/
theorem laneTerm_byteOperand_toNat (k : Lane) (b : Byte) :
    (laneTerm k (byteOperand b)).toNat = b.toNat * 2 ^ (8 * k.toNat) := by
  rw [laneTerm_toNat k (byteOperand_le b), byteOperand_toNat]

/-- The sum of the four lanes stays below 2^32, so the 32-bit additions do not wrap. -/
theorem le32_toNat (b0 b1 b2 b3 : Byte) :
    (le32 b0 b1 b2 b3).toNat = b0.toNat + b1.toNat * 2 ^ 8 + b2.toNat * 2 ^ 16 + b3.toNat * 2 ^ 24 := by
  rw [le32_eq_sum_laneTerm]
  simp only [BitVec.toNat_add, laneTerm_byteOperand_toNat, BitVec.reduceToNat, Nat.reduceMul]
  omega

theorem le32_eq_append (b0 b1 b2 b3 : Byte) : le32 b0 b1 b2 b3 = b3 ++ b2 ++ b1 ++ b0 := by
  apply BitVec.eq_of_toNat_eq
  simp only [le32_toNat, append_toNat]
  omega

/-- Settles O29: the four lanes are disjoint, so both sides are the same number. -/
theorem littleEndianWord : Obligations.LittleEndianWord := by
  unfold Obligations.LittleEndianWord
  intro b0 b1 b2 b3
  exact ⟨le32_toNat b0 b1 b2 b3, le32_eq_append b0 b1 b2 b3⟩

end Sys2Proof.Proofs
end

section
/-! PROOFS. The command encoding (30_encoding.md R50 to R53, R59): the fields of a word, the one row that matches it,
and the round trips of the encoder and the decoder. -/

namespace Sys2Proof.Proofs

open Sys2Proof.Machine Sys2Proof.Laws

/-! ## The word and its fields -/

theorem fieldsWord_toNat (op : BitVec 8) (f : Small) (d : Operand) :
    (fieldsWord op f d).toNat = op.toNat * 2 ^ 72 + f.toNat * 2 ^ 64 + d.toNat := by
  rw [fieldsWord, append_toNat, append_toNat]
  omega

/-- Settles O11: the word is a concatenation, and the accessors cut it where its fields were joined. -/
theorem commandWordIsItsFields : Obligations.CommandWordIsItsFields := by
  unfold Obligations.CommandWordIsItsFields
  intro op f d
  exact ⟨fieldsWord_toNat op f d, opOf_fieldsWord op f d, fOf_fieldsWord op f d, dOf_fieldsWord op f d⟩

/-! ## The one row that matches -/

theorem rowMatches_iff_masked (w : CmdWord) (row : Row) :
    rowMatches w row = true ↔ w &&& formatMask row.format = fieldsWord row.op 0 0 := by
  simp [rowMatches]

/-- Every mask of R51 covers the opcode, so a matching row has the opcode of the word, and the word's must-be-zero bits
are 0. -/
theorem fields_of_rowMatches {w : CmdWord} {row : Row} (h : rowMatches w row = true) :
    opOf w = row.op ∧ reservedZero row.format (fOf w) (dOf w) := by
  rw [← fieldsWord_of_fields w] at h
  exact (rowMatches_iff _ _ _ row).1 h

/-- No two rows of R52 share an opcode. -/
theorem row_eq_of_op_eq {row row' : Row} (hrow : row ∈ opcodeTable) (hrow' : row' ∈ opcodeTable)
    (hop : row.op = row'.op) : row = row' :=
  List.inj_on_of_nodup_map (f := Row.op) (by decide) hrow hrow' hop

theorem row_eq_of_rowMatches {w : CmdWord} {row row' : Row} (hrow : row ∈ opcodeTable) (hrow' : row' ∈ opcodeTable)
    (h : rowMatches w row = true) (h' : rowMatches w row' = true) : row = row' :=
  row_eq_of_op_eq hrow hrow' ((fields_of_rowMatches h).1.symm.trans (fields_of_rowMatches h').1)

theorem decode_of_no_row {w : CmdWord} (h : ∀ row ∈ opcodeTable, ¬ rowMatches w row = true) :
    decode w = .error .illegalCommand := by
  rw [decode, List.find?_eq_none.2 h]

/-- The decoder finds a matching row, and there is only one to find. -/
theorem decode_of_rowMatches {w : CmdWord} {row : Row} (hrow : row ∈ opcodeTable) (h : rowMatches w row = true) :
    decode w = .ok (row.build w) := by
  cases hd : decode w with
  | ok i =>
    obtain ⟨row', hrow', h', rfl⟩ := decode_ok hd
    rw [row_eq_of_rowMatches hrow hrow' h h']
  | error x =>
    have hno : rowMatches w row = false := (decode_error hd).2 row hrow
    simp [h] at hno

/-- Settles O12: the opcodes tell the rows apart, so the decoder's search cannot stop at a wrong one. -/
theorem decoderTakesTheOneMatchingRow : Obligations.DecoderTakesTheOneMatchingRow := by
  unfold Obligations.DecoderTakesTheOneMatchingRow
  intro w
  simp only [ne_eq, ← rowMatches_iff_masked]
  exact ⟨fun _ hrow h => decode_of_rowMatches hrow h,
    fun _ hrow _ hrow' h h' => row_eq_of_rowMatches hrow hrow' h h',
    decode_of_no_row, fun _ => acceptCommand_halted w⟩

/-! ## The round trips -/

/-- The word of a command selects its own row in R52, and that row's operands are the command's. -/
theorem decode_encode (i : Instr) : decode (encode i) = .ok i := by
  cases i with
  | minit seed => simp [encode, decode_fields, MatchesRow.upper_setWidth]
  | addlA k imm | addlB k imm | addlC k imm => simp [encode, decode_fields, MatchesRow.upper_lane]
  | mix | mrnd0 | mrnd1 | mrnd2 | hinit | hfin => simp [encode, decode_fields]
  | addwA d | addwB d | addwC d | habs d => simp [encode, decode_fields]
  | lrs n value => simp [encode, decode_fields]

/-- Settles O14, constructor by constructor. -/
theorem decodeOfEncodeIsIdentity : Obligations.DecodeOfEncodeIsIdentity := decode_encode

/-- The field `f` with the must-be-zero bits of a format cleared (R51). -/
def clearedF : Format → Small → Small
  | .Z, _ => 0
  | .S, _ => 0
  | .W, _ => 0
  | .L, f => (f.setWidth 2).setWidth 8
  | .N, f => f

/-- The field `d` with the must-be-zero bits of a format cleared (R51). -/
def clearedD : Format → Operand → Operand
  | .Z, _ => 0
  | .S, d => (d.setWidth 32).setWidth 64
  | .W, d => d
  | .L, d => d
  | .N, d => d

/-- A row's command keeps every bit of the fields but the must-be-zero ones. -/
theorem encode_build {row : Row} (hrow : row ∈ opcodeTable) (op : BitVec 8) (f : Small) (d : Operand) :
    encode (row.build (fieldsWord op f d)) = fieldsWord row.op (clearedF row.format f) (clearedD row.format d) := by
  revert row
  simp [opcodeTable, encode, clearedF, clearedD]

/-- Clearing bits that are already 0 does nothing. -/
theorem cleared_of_reservedZero {fmt : Format} {f : Small} {d : Operand} (h : reservedZero fmt f d) :
    clearedF fmt f = f ∧ clearedD fmt d = d := by
  cases fmt with
  | Z => exact ⟨h.1.symm, h.2.symm⟩
  | S => exact ⟨h.1.symm, setWidth_low_of_upper d h.2⟩
  | W => exact ⟨h.symm, rfl⟩
  | L => exact ⟨setWidth_lane_of_zero f h, rfl⟩
  | N => exact ⟨rfl, rfl⟩

theorem encode_build_of_rowMatches {w : CmdWord} {row : Row} (hrow : row ∈ opcodeTable)
    (h : rowMatches w row = true) : encode (row.build w) = w := by
  obtain ⟨hop, hzero⟩ := fields_of_rowMatches h
  obtain ⟨hf, hd⟩ := cleared_of_reservedZero hzero
  calc encode (row.build w)
      _ = encode (row.build (fieldsWord (opOf w) (fOf w) (dOf w))) := by rw [fieldsWord_of_fields]
      _ = fieldsWord row.op (clearedF row.format (fOf w)) (clearedD row.format (dOf w)) := encode_build hrow _ _ _
      _ = fieldsWord (opOf w) (fOf w) (dOf w) := by rw [hf, hd, hop]
      _ = w := fieldsWord_of_fields w

/-- Settles O15: the word matches the row of its command, so the bits that the command does not keep are 0. -/
theorem encodeOfDecodeIsIdentity : Obligations.EncodeOfDecodeIsIdentity := by
  unfold Obligations.EncodeOfDecodeIsIdentity
  intro w i hd
  obtain ⟨row, hrow, h, rfl⟩ := decode_ok hd
  exact encode_build_of_rowMatches hrow h

/-- Settles O16: the decoder evaluated on the sixteen words of R59. -/
theorem workedEncodingsDecode : Obligations.WorkedEncodingsDecode := by
  unfold Obligations.WorkedEncodingsDecode
  decide

end Sys2Proof.Proofs
end

section
/-! PROOFS. The assembler on written lines (30_encoding.md R57, R58): which operands it accepts, and the integers that
an accepted operand encodes as. -/

namespace Sys2Proof.Proofs

open Sys2Proof.Machine Sys2Proof.Laws

theorem assemble_of_wellFormed {x : Written} (h : x.wellFormed = true) : assemble x = some (expand x) := if_pos h

theorem isSome_assemble (x : Written) : (assemble x).isSome = true ↔ x.wellFormed = true := by
  simp [assemble]

/-! ## The stated ranges -/

theorem inByte_iff (v : Int) : inByte v = true ↔ 0 ≤ v ∧ v ≤ 255 := decide_eq_true_iff

theorem inSeed_iff (v : Int) : inSeed v = true ↔ 0 ≤ v ∧ v ≤ 2 ^ 32 - 1 := by
  rw [inSeed, decide_eq_true_iff, Int.le_sub_one_iff]

theorem inSigned64_iff (v : Int) : inSigned64 v = true ↔ -2 ^ 63 ≤ v ∧ v ≤ 2 ^ 64 - 1 := by
  rw [inSigned64, decide_eq_true_iff, Int.le_sub_one_iff]

theorem inUnsigned64_iff (v : Int) : inUnsigned64 v = true ↔ 0 ≤ v ∧ v ≤ 2 ^ 64 - 1 := by
  rw [inUnsigned64, decide_eq_true_iff, Int.le_sub_one_iff]

theorem inSigned64_natCast {v : Nat} (h : v < 2 ^ 64) : inSigned64 v = true := by
  rw [inSigned64, decide_eq_true_iff]; omega

theorem inSigned64_of_neg {v : Int} (hlow : -2 ^ 63 ≤ v) (hneg : v < 0) : inSigned64 v = true := by
  rw [inSigned64, decide_eq_true_iff]; omega

theorem inUnsigned64_natCast {v : Nat} (h : v < 2 ^ 64) : inUnsigned64 v = true := by
  rw [inUnsigned64, decide_eq_true_iff]; omega

theorem inSeed_natCast {v : Nat} (h : v < 2 ^ 32) : inSeed v = true := by
  rw [inSeed, decide_eq_true_iff]; omega

/-! ## The commands with an operand, once their operands are in range -/

theorem assemble_minit {seed : Int} (h : inSeed seed = true) :
    assemble (.minit seed) = some [.minit (BitVec.ofInt 32 seed)] :=
  assemble_of_wellFormed h

theorem assemble_addw (x : XSel) {v : Int} (h : inSigned64 v = true) :
    assemble (.addw x v) = some [addwInstr x (BitVec.ofInt 64 v)] :=
  assemble_of_wellFormed h

theorem assemble_addl (x : XSel) {k v : Int} (hk : 0 ≤ k ∧ k ≤ 3) (h : inUnsigned64 v = true) :
    assemble (.addl x k v) = some [addlInstr x (BitVec.ofInt 2 k) (BitVec.ofInt 64 v)] :=
  assemble_of_wellFormed (by simp [Written.wellFormed, hk, h])

theorem assemble_habs {v : Int} (h : inSigned64 v = true) : assemble (.habs v) = some [.habs (BitVec.ofInt 64 v)] :=
  assemble_of_wellFormed h

/-- Every shift amount of eight bits is in LRS's range 0 .. 255. -/
theorem assemble_lrs (n : Small) {v : Int} (h : inSigned64 v = true) :
    assemble (.lrs n.toNat v) = some [.lrs n (BitVec.ofInt 64 v)] := by
  have hn : (n.toNat : Int) ≤ 255 := by omega
  rw [assemble_of_wellFormed (by simp [Written.wellFormed, hn, h])]
  simp [expand]

/-- A negative operand is its two's complement (R54, R57). -/
theorem ofInt_of_neg {v : Int} (hlow : -2 ^ 63 ≤ v) (hneg : v < 0) :
    BitVec.ofInt 64 v = BitVec.ofNat 64 (v + 2 ^ 64).toNat := by
  apply BitVec.eq_of_toNat_eq
  rw [BitVec.toNat_ofInt, BitVec.toNat_ofNat]
  omega

theorem addwInstr_eq_addw (x : XSel) (d : Operand) : addwInstr x d = Spec.addw x d := by
  cases x <;> rfl

theorem addlInstr_eq_addl (x : XSel) (k : Nat) (d : Operand) : addlInstr x (BitVec.ofNat 2 k) d = Spec.addl x k d := by
  cases x <;> rfl

/-- Settles O57: a line is accepted exactly when it is well formed, which is the conjunction of its operands' ranges. -/
theorem assemblerAcceptsStatedRanges : Obligations.AssemblerAcceptsStatedRanges := by
  unfold Obligations.AssemblerAcceptsStatedRanges
  simp only [isSome_assemble, Written.wellFormed, Bool.and_eq_true, decide_eq_true_eq, List.all_eq_true, inByte_iff,
    inSeed_iff, inSigned64_iff, inUnsigned64_iff, implies_true, true_and, and_true]
  intro v hlow hneg
  have hv : inSigned64 v = true := inSigned64_of_neg hlow hneg
  rw [← ofInt_of_neg hlow hneg]
  exact ⟨fun x => assemble_addw x hv, assemble_habs hv, fun n => assemble_lrs n hv⟩

/-- Settles O59: each range holds the written integer, and its residue at the field's width is the operand. -/
theorem assemblerEncodesNonNegativeOperands : Obligations.AssemblerEncodesNonNegativeOperands := by
  unfold Obligations.AssemblerEncodesNonNegativeOperands
  refine ⟨fun v hv => ?_, fun v hv => ⟨fun x => ?_, fun x k hk => ?_, ?_, fun n => ?_⟩, rfl, rfl, rfl, rfl, rfl, rfl⟩
  · rw [assemble_minit (inSeed_natCast hv), BitVec.ofInt_natCast]
  · rw [assemble_addw x (inSigned64_natCast hv), BitVec.ofInt_natCast, addwInstr_eq_addw, Spec.operand]
  · rw [assemble_addl x (by omega) (inUnsigned64_natCast hv), BitVec.ofInt_natCast, BitVec.ofInt_natCast,
      addlInstr_eq_addl, Spec.operand]
  · rw [assemble_habs (inSigned64_natCast hv), BitVec.ofInt_natCast, Spec.operand]
  · rw [assemble_lrs n (inSigned64_natCast hv), BitVec.ofInt_natCast, Spec.operand]

end Sys2Proof.Proofs
end

section
/-! PROOFS. The host's command lists, byte by byte (43_host_sequences.md R114 to R119), and the pseudo-instructions that
expand to them (30_encoding.md R58, R121 to R123). -/

namespace Sys2Proof.Proofs

open Sys2Proof.Machine Sys2Proof.Laws

/-! ## Bytes and words of a message as operands -/

theorem byteAt_toNat (data : List Byte) (n : Nat) : (byteAt data n).toNat = Spec.byte data n := by
  unfold byteAt Spec.byte
  cases h : data[n]? <;> simp [h]

theorem byteOperand_eq_operand (b : Byte) : byteOperand b = Spec.operand b.toNat := by
  apply BitVec.eq_of_toNat_eq
  simp [byteOperand, Spec.operand]

theorem byteOperand_byteAt (data : List Byte) (n : Nat) :
    byteOperand (byteAt data n) = Spec.operand (Spec.byte data n) := by
  rw [byteOperand_eq_operand, byteAt_toNat]

theorem wordOperand_eq_operand (w : Word) : wordOperand w = Spec.operand w.toNat := by
  apply BitVec.eq_of_toNat_eq
  simp [wordOperand, Spec.operand]

/-- Word m of block j is the little-endian word at `data[12j+4m]` (R114). -/
theorem blockWord_toNat (data : List Byte) (j m : Nat) :
    (blockWord data j m).toNat = Spec.wordAt data (12 * j + 4 * m) := by
  simp only [blockWord, le32_toNat, byteAt_toNat, Spec.wordAt]

theorem byte_drop (data : List Byte) (i n : Nat) : Spec.byte (data.drop i) n = Spec.byte data (i + n) := by
  simp only [Spec.byte, List.getElem?_drop]

/-! ## One full block -/

theorem blockCommands_eq_blockList (data : List Byte) (j : Nat) :
    blockCommands data j = Spec.blockList data (12 * j) := by
  simp only [blockCommands, blockOfWords, Spec.blockList, wordOperand_eq_operand, blockWord_toNat, Nat.mul_zero,
    Nat.mul_one, Nat.add_zero, Nat.reduceMul]

/-! ## The tail -/

/-- The row of R116's table for the tail byte `t[m]`: its threshold is m + 1, and the bytes of C start at lane 1. -/
def tailEntry (m : Nat) : Nat × XSel × Lane :=
  if m < 4 then (m + 1, .A, BitVec.ofNat 2 m)
  else if m < 8 then (m + 1, .B, BitVec.ofNat 2 (m - 4))
  else (m + 1, .C, BitVec.ofNat 2 (m - 7))

/-- The rows that a tail of `rem` bytes selects are those of its own bytes, the last one first. -/
theorem tailTable_filter_le : ∀ rem ≤ 11,
    tailTable.filter (fun row => decide (row.1 ≤ rem)) = (List.range rem).reverse.map tailEntry := by
  decide

theorem tailCommand_tailEntry (t : List Byte) (m : Nat) :
    tailCommand t (tailEntry m) = Spec.tailRow m (Spec.byte t m) := by
  unfold tailCommand tailEntry Spec.tailRow
  split_ifs <;> simp only [addlInstr_eq_addl, Nat.add_sub_cancel, byteOperand_byteAt]

theorem tailCommands_eq_tailList {t : List Byte} (h : t.length ≤ 11) :
    tailCommands t = Spec.tailList t 0 t.length := by
  simp only [tailCommands, tailTable_filter_le t.length h, List.map_map, Function.comp_def, tailCommand_tailEntry,
    Spec.tailList, Nat.zero_add]

theorem tailList_drop (data : List Byte) (i rem : Nat) : Spec.tailList (data.drop i) 0 rem = Spec.tailList data i rem := by
  simp only [Spec.tailList, byte_drop, Nat.zero_add]

/-- The tail's t[m] is `data[12q + m]` (R116). -/
theorem tailCommands_tailBytes (data : List Byte) :
    tailCommands (tailBytes data) = Spec.tailList data (12 * (data.length / 12)) (data.length % 12) := by
  have hlen : (tailBytes data).length = data.length % 12 := tailBytes_length data
  rw [tailCommands_eq_tailList (by omega), hlen]
  exact tailList_drop data _ _

/-! ## The whole sequences -/

theorem mtail_eq {len : Nat} {t : List Byte} (h : t.length ≤ 11) :
    mtail len t = [.addwC (Spec.operand len)] ++ Spec.tailList t 0 t.length ++ [.mix] := by
  rw [mtail, tailCommands_eq_tailList h]
  rfl

theorem mhash_eq_mhashList (seed : Word) (data : List Byte) : mhash seed data = Spec.mhashList seed data := by
  have hblocks : blockCommands data = fun j => Spec.blockList data (12 * j) :=
    funext (blockCommands_eq_blockList data)
  simp only [mhash, mtail, hblocks, tailCommands_tailBytes, Spec.mhashList, fullBlocks, blockBytes, lengthOperand,
    Spec.operand, List.cons_append, List.nil_append, List.append_assoc]

theorem ooatCommands_eq_ooatList (data : List Byte) : ooatCommands data = Spec.ooatList data := by
  simp only [ooatCommands, Spec.ooatList, byteOperand_eq_operand, List.cons_append, List.nil_append]

/-! ## A message as an assembler's operands -/

@[simp] theorem ints_length (data : List Byte) : (Spec.ints data).length = data.length := List.length_map ..

/-- Every byte of a message is in range (R111). -/
@[simp] theorem ints_all_inByte (data : List Byte) : (Spec.ints data).all inByte = true := by
  simp only [Spec.ints, List.all_map, List.all_eq_true, Function.comp_apply, inByte_iff]
  omega

/-- The assembler reads back the bytes that were written. -/
@[simp] theorem map_byteOfInt_ints (data : List Byte) : (Spec.ints data).map byteOfInt = data := by
  simp [Spec.ints, byteOfInt, Function.comp_def]

theorem ints_ne_nil {data : List Byte} (h : data ≠ []) : Spec.ints data ≠ [] := by
  simpa [Spec.ints] using h

theorem assemble_mblk_ints {data : List Byte} (h : data.length = 12) :
    assemble (.mblk (Spec.ints data)) = some (mblk data) := by
  rw [assemble_of_wellFormed (by simp [Written.wellFormed, h]), expand, map_byteOfInt_ints]

theorem assemble_mtail_ints {len : Nat} {t : List Byte} (hlen : 1 ≤ len) (ht : len % 12 = t.length) :
    assemble (.mtail len (Spec.ints t)) = some (mtail len t) := by
  have hrange : 1 ≤ (len : Int) ∧ (len : Int) % 12 = t.length := by omega
  rw [assemble_of_wellFormed (by simp [Written.wellFormed, hrange]), expand, map_byteOfInt_ints, Int.toNat_natCast]

theorem assemble_mhash_ints (seed : Word) {data : List Byte} (h : data ≠ []) :
    assemble (.mhash seed.toNat (Spec.ints data)) = some (mhash seed data) := by
  have hseed : BitVec.ofInt 32 seed.toNat = seed := by simp
  rw [assemble_of_wellFormed (by simp [Written.wellFormed, inSeed_natCast seed.isLt, ints_ne_nil h]), expand,
    map_byteOfInt_ints, hseed]

theorem assemble_hstr_ints (data : List Byte) : assemble (.hstr (Spec.ints data)) = some (ooatCommands data) := by
  rw [assemble_of_wellFormed (x := .hstr (Spec.ints data)) (ints_all_inByte data), expand, map_byteOfInt_ints]

/-- Settles O60: each pseudo-instruction on a message is the host's command list, which is the spec's. -/
theorem assemblerExpandsPseudoInstructions : Obligations.AssemblerExpandsPseudoInstructions := by
  unfold Obligations.AssemblerExpandsPseudoInstructions
  refine ⟨fun data h => ?_, fun len t hlen ht => ?_, fun seed data h => ?_, fun data => ?_⟩
  · rw [assemble_mblk_ints h, mblk, blockCommands_eq_blockList]
  · rw [assemble_mtail_ints hlen ht, mtail_eq (by omega)]
  · rw [assemble_mhash_ints seed h, mhash_eq_mhashList]
  · rw [assemble_hstr_ints, ooatCommands_eq_ooatList]

end Sys2Proof.Proofs
end

section
/-! PROOFS. The LRS unit (40_lrs.md R70 to R72): the shift as an integer and at its corners, the command, and its word at
the port. -/

namespace Sys2Proof.Proofs

open Sys2Proof.Machine Sys2Proof.Laws

/-! ## The shift -/

/-- The low 32 bits of a 64-bit two's complement are the residue that R70 names, whatever the sign. -/
theorem lrs_ofInt (v : Int) (n : Nat) : lrs (BitVec.ofInt 64 v) n = Spec.word (Spec.lrs v n) := by
  have hlow : (BitVec.ofInt 64 v).toNat % 2 ^ 32 = (v % 2 ^ 32).toNat := by
    rw [BitVec.toNat_ofInt]; omega
  have hfits : (v % 2 ^ 32).toNat / 2 ^ n < 2 ^ 32 := Nat.div_lt_of_lt (by omega)
  apply BitVec.eq_of_toNat_eq
  rw [lrs_toNat, hlow, Spec.word, Spec.lrs, BitVec.toNat_ofNat, Nat.mod_eq_of_lt hfits]

theorem lrs_zero (v : Operand) : lrs v 0 = v.setWidth 32 := by
  apply BitVec.eq_of_toNat_eq
  rw [lrs_toNat, BitVec.toNat_setWidth, pow_zero, Nat.div_one]

theorem lrs_31 (v : Operand) : lrs v 31 = if v.getLsbD 31 then 1#32 else 0#32 := by
  apply BitVec.eq_of_toNat_eq
  simp only [lrs_toNat, BitVec.getLsbD, Nat.testBit_eq_decide_div_mod_eq, decide_eq_true_eq, apply_ite BitVec.toNat,
    BitVec.toNat_ofNat]
  split <;> omega

/-- The shift amount is not reduced: from 32 on nothing of the word is left (R72). -/
theorem lrs_of_le (v : Operand) {n : Nat} (h : 32 ≤ n) : lrs v n = 0#32 := by
  have hpow : 2 ^ 32 ≤ 2 ^ n := Nat.pow_le_pow_right (by decide) h
  apply BitVec.eq_of_toNat_eq
  rw [lrs_toNat, Nat.div_eq_of_lt (by omega), BitVec.toNat_zero]

theorem lrs_congr {v w : Operand} (h : v.toNat % 2 ^ 32 = w.toNat % 2 ^ 32) (n : Nat) : lrs v n = lrs w n := by
  apply BitVec.eq_of_toNat_eq
  rw [lrs_toNat, lrs_toNat, h]

/-- A shift by n leaves 32 - n bits. -/
theorem lrs_toNat_le (v : Operand) {n : Nat} (h : n ≤ 32) : (lrs v n).toNat ≤ 2 ^ (32 - n) - 1 := by
  have hsplit : 2 ^ 32 = 2 ^ n * 2 ^ (32 - n) := by rw [← pow_add, Nat.add_sub_cancel' h]
  have hlow : v.toNat % 2 ^ 32 < 2 ^ n * 2 ^ (32 - n) := hsplit ▸ Nat.mod_lt _ (by decide)
  rw [lrs_toNat]
  exact Nat.le_sub_one_of_lt (Nat.div_lt_of_lt_mul hlow)

/-! ## The command -/

/-- A running block latches the shift in R and changes nothing else (R71). -/
theorem exec_lrs {s : State} (h : s.err = 0#1) {n : Small} {v : Operand} {x : Word} (hx : lrs v n.toNat = x) :
    exec (.lrs n v) s = .next { s with r := x } := by
  rw [exec_running _ h, ← hx]
  rfl

/-- Settles O36: the command latches the shift, which is R70's on integers. -/
theorem lrsShiftsTheReducedValue : Obligations.LrsShiftsTheReducedValue := by
  unfold Obligations.LrsShiftsTheReducedValue
  intro s v n h
  exact exec_lrs h (lrs_ofInt v n.toNat)

/-- Settles O37: each clause is a corner of the shift. -/
theorem lrsCornerCases : Obligations.LrsCornerCases := by
  unfold Obligations.LrsCornerCases
  intro s v w n h
  refine ⟨exec_lrs h (lrs_zero v), exec_lrs h (lrs_31 v), fun hn => exec_lrs h (lrs_of_le v hn), fun hvw => ?_,
    fun hn => ⟨_, exec_lrs h rfl, lrs_toNat_le v hn⟩⟩
  rw [exec_lrs h (lrs_congr hvw n.toNat), exec_lrs h rfl]

/-! ## The word at the port -/

/-- An offered word that decodes is taken from the port and has its command's effect. -/
theorem step_offered {s : State} {op : BitVec 8} {f : Small} {d : Operand} {rest : List Edge} {i : Instr}
    (ho : Spec.Offered s op f d rest) (hd : decode (fieldsWord op f d) = .ok i) :
    step s = .next (effect i (Spec.taken s rest)) := by
  obtain ⟨herr, hport⟩ := ho
  calc step s
      _ = acceptCommand (fieldsWord op f d) (s.withPort rest) := step_command hport
      _ = exec i (s.withPort rest) := acceptCommand_of_decode hd _
      _ = .next (effect i (Spec.taken s rest)) := exec_running i herr

/-- Settles O44: format N has no must-be-zero bit (R51), so the word is an LRS whatever its fields are, and LRS only
writes R. -/
theorem lrsWordAtThePort : Obligations.LrsWordAtThePort := by
  unfold Obligations.LrsWordAtThePort
  intro s f d rest ho
  have hshift : lrs d f.toNat = Spec.word (Spec.lrs d.toNat f.toNat) := by
    rw [← lrs_ofInt, BitVec.ofInt_natCast, BitVec.ofNat_toNat, BitVec.setWidth_eq]
  rw [step_offered ho (decode_encode (.lrs f d)), ← hshift]
  rfl

end Sys2Proof.Proofs
end

section
/-! PROOFS. The rounds and the mixing step of the MIX unit (41_mix.md R80 to R83): on numbers, their inverses, and the
commands MINIT, MRND.i and MIX (R84, R91 to R94). -/

namespace Sys2Proof.Proofs

open Sys2Proof.Machine Sys2Proof.Laws

/-! ## Words as numbers -/

@[simp] theorem word_toNat (x : Word) : Spec.word x.toNat = x := by
  rw [Spec.word, BitVec.ofNat_toNat, BitVec.setWidth_eq]

theorem toNat_sub_eq (x y : Word) : (x - y).toNat = Spec.sub x.toNat y.toNat := by
  rw [BitVec.toNat_sub, Nat.add_comm, Spec.sub]

theorem toNat_shiftLeft_eq (x : Word) (n : Nat) : (x <<< n).toNat = Spec.shl x.toNat n := by
  rw [BitVec.toNat_shiftLeft, Nat.shiftLeft_eq, Spec.shl]

theorem toNat_lrs_word (x : Word) (n : Nat) : (lrs x n).toNat = x.toNat / 2 ^ n := by
  rw [lrs_toNat, Nat.mod_eq_of_lt x.isLt]

/-! ## The round on numbers -/

/-- The words of a triple as numbers. -/
def tripleNums (t : Triple) : Nat × Nat × Nat := (t.a.toNat, t.b.toNat, t.c.toNat)

theorem nums_eq_tripleNums (s : State) : Spec.nums s = tripleNums s.triple := rfl

theorem withTriple_tripleNums (s : State) (t : Triple) : Spec.withTriple s (tripleNums t) = s.setTriple t := by
  simp only [Spec.withTriple, tripleNums, word_toNat, State.setTriple]

/-- Line by line, the round on words is R80's round on numbers. -/
theorem round_tripleNums (t : Triple) (s1 s2 s3 : Nat) :
    Spec.round (tripleNums t) s1 s2 s3 = tripleNums (mixRound t (s1, s2, s3)) := by
  simp only [Spec.round, tripleNums, mixRound, BitVec.toNat_xor, toNat_sub_eq, toNat_shiftLeft_eq, toNat_lrs_word]

theorem mix_tripleNums (t : Triple) : Spec.mix (tripleNums t) = tripleNums (mixStep t) := by
  simp only [Spec.mix, round_tripleNums]
  rfl

/-! ## The round commands and MIX -/

theorem exec_of_effect {i : Instr} {s t : State} (h : s.err = 0#1) (ht : effect i s = t) : exec i s = .next t := by
  rw [exec_running i h, ht]

theorem setTriple_mixRound (s : State) (s1 s2 s3 : Nat) :
    s.setTriple (mixRound s.triple (s1, s2, s3)) = Spec.withTriple s (Spec.round (Spec.nums s) s1 s2 s3) := by
  rw [nums_eq_tripleNums, round_tripleNums, withTriple_tripleNums]

theorem effect_mrnd0 (s : State) : effect .mrnd0 s = Spec.withTriple s (Spec.round (Spec.nums s) 13 8 13) :=
  setTriple_mixRound s 13 8 13

theorem effect_mrnd1 (s : State) : effect .mrnd1 s = Spec.withTriple s (Spec.round (Spec.nums s) 12 16 5) :=
  setTriple_mixRound s 12 16 5

theorem effect_mrnd2 (s : State) : effect .mrnd2 s = Spec.withTriple s (Spec.round (Spec.nums s) 3 10 15) :=
  setTriple_mixRound s 3 10 15

theorem effect_mix (s : State) : effect .mix s = Spec.withTriple s (Spec.mix (Spec.nums s)) := by
  rw [nums_eq_tripleNums, mix_tripleNums, withTriple_tripleNums]
  rfl

/-- Settles O17: the triple that MINIT writes is R84's. -/
theorem minitStartsContext : Obligations.MinitStartsContext := by
  unfold Obligations.MinitStartsContext
  intro s seed h
  exact exec_of_effect h rfl

/-- Settles O21: the round on words is the round on numbers, and MRND.i takes row i of MIXS. -/
theorem mrndAppliesItsRound : Obligations.MrndAppliesItsRound := by
  unfold Obligations.MrndAppliesItsRound
  intro s h
  exact ⟨exec_of_effect h (effect_mrnd0 s), exec_of_effect h (effect_mrnd1 s), exec_of_effect h (effect_mrnd2 s)⟩

/-- Settles O22: the mixing step on words is the one on numbers. -/
theorem mixAppliesThreeRounds : Obligations.MixAppliesThreeRounds := by
  unfold Obligations.MixAppliesThreeRounds
  intro s h
  exact exec_of_effect h (effect_mix s)

/-- MIX writes at once what the three rounds write one after the other. -/
theorem effect_mix_eq_rounds (s : State) : effect .mix s = effect .mrnd2 (effect .mrnd1 (effect .mrnd0 s)) := rfl

/-- Settles O23: a halted block discards all of them, and a running one keeps running through the three rounds. -/
theorem mixEqualsThreeRoundCommands : Obligations.MixEqualsThreeRoundCommands := by
  unfold Obligations.MixEqualsThreeRoundCommands
  intro s
  rcases err_cases s with h0 | h1
  · have herr0 : (effect .mrnd0 s).err = 0#1 := h0
    have herr1 : (effect .mrnd1 (effect .mrnd0 s)).err = 0#1 := h0
    rw [execAll_cons_running _ _ h0, execAll_cons_running _ _ herr0, execAll_cons_running _ _ herr1, execAll_nil,
      exec_running _ h0, effect_mix_eq_rounds]
  · rw [exec_halted _ h1, execAll_halted _ h1]

/-- R82: no operation of a round makes a 1 bit from zeros. -/
theorem mixStep_zero : mixStep ⟨0#32, 0#32, 0#32⟩ = ⟨0#32, 0#32, 0#32⟩ := by decide

theorem setTriple_triple (s : State) : s.setTriple s.triple = s := rfl

/-- Settles O24: the zero triple is a fixed point of the mixing step, and a halted block keeps its state anyway. -/
theorem mixFixesTheZeroTriple : Obligations.MixFixesTheZeroTriple := by
  unfold Obligations.MixFixesTheZeroTriple
  intro s ha hb hc
  have htriple : s.triple = ⟨0#32, 0#32, 0#32⟩ := by rw [State.triple, ha, hb, hc]
  have hfix : effect .mix s = s := by
    rw [effect, htriple, mixStep_zero, ← htriple, setTriple_triple]
  rcases err_cases s with h0 | h1
  · exact exec_of_effect h0 hfix
  · exact exec_halted _ h1

/-! ## The inverses -/

theorem xor_cancel_right (x y : Word) : x ^^^ y ^^^ y = x := by
  rw [BitVec.xor_assoc, BitVec.xor_self, BitVec.xor_zero]

/-- Each line of the inverse undoes its line of the round: an exclusive or by repeating it, a subtraction by adding. -/
theorem mixRoundInv_mixRound (t : Triple) (shifts : Nat × Nat × Nat) : mixRoundInv (mixRound t shifts) shifts = t := by
  simp only [mixRound, mixRoundInv, xor_cancel_right, BitVec.sub_add_cancel]

theorem mixRound_mixRoundInv (t : Triple) (shifts : Nat × Nat × Nat) : mixRound (mixRoundInv t shifts) shifts = t := by
  simp only [mixRound, mixRoundInv, xor_cancel_right, BitVec.add_sub_cancel]

theorem mixStepInv_mixStep (t : Triple) : mixStepInv (mixStep t) = t := by
  simp only [mixStep, mixStepInv, mixRoundInv_mixRound]

theorem mixStep_mixStepInv (t : Triple) : mixStep (mixStepInv t) = t := by
  simp only [mixStep, mixStepInv, mixRound_mixRoundInv]

/-- Settles O25: a round and its inverse cancel line by line, so the three rounds of the mixing step cancel one by
one. -/
theorem roundsAndMixAreBijections : Obligations.RoundsAndMixAreBijections := by
  unfold Obligations.RoundsAndMixAreBijections
  exact ⟨mixRoundInv_mixRound, mixRound_mixRoundInv, mixStepInv_mixStep, mixStep_mixStepInv⟩

end Sys2Proof.Proofs
end

section
/-! PROOFS. The adds of the MIX unit (41_mix.md R85 to R90, R95): ADDW.x and ADDL.x on numbers, their exchange and their
merging. -/

namespace Sys2Proof.Proofs

open Sys2Proof.Machine Sys2Proof.Laws

/-! ## What an add adds -/

/-- `x[i] <- x[i] + v`: what every add does that does not fault. -/
def addTo (s : State) (x : XSel) (v : Word) : State := s.setX x (s.x x + v)

@[simp] theorem addTo_err (s : State) (x : XSel) (v : Word) : (addTo s x v).err = s.err := setX_err ..

theorem effect_addwInstr (x : XSel) (d : Operand) (s : State) : effect (addwInstr x d) s = addTo s x (lowWord d) := by
  cases x <;> rfl

theorem effect_addlInstr (x : XSel) (k : Lane) (d : Operand) (s : State) :
    effect (addlInstr x k d) s = s.addLane x k d := by
  cases x <;> rfl

theorem effect_addlInstr_byte (x : XSel) (k : Lane) {d : Operand} (h : d.toNat ≤ 255) (s : State) :
    effect (addlInstr x k d) s = addTo s x (laneTerm k d) := by
  rw [effect_addlInstr, addLane_byte s x k h, addTo]

theorem effect_addlInstr_wide (x : XSel) (k : Lane) {d : Operand} (h : 255 < d.toNat) (s : State) :
    effect (addlInstr x k d) s = Spec.faulted s 2#2 := by
  rw [effect_addlInstr, addLane_wide s x k h]
  rfl

/-! ## The adds on numbers -/

/-- Only the residue of the summand modulo 2^32 counts. -/
theorem addTo_eq_setX {v : Word} {n : Nat} (hv : v.toNat = n % 2 ^ 32) (s : State) (x : XSel) :
    addTo s x v = s.setX x (Spec.word (Spec.add (s.x x).toNat n)) := by
  rw [addTo]
  congr 1
  apply BitVec.eq_of_toNat_eq
  rw [BitVec.toNat_add, hv, Spec.word, Spec.add, BitVec.toNat_ofNat, Nat.mod_mod, Nat.add_mod_mod]

theorem effect_addw_nat (x : XSel) (d : Operand) (s : State) :
    effect (addwInstr x d) s = s.setX x (Spec.word (Spec.add (s.x x).toNat d.toNat)) := by
  rw [effect_addwInstr, addTo_eq_setX (lowWord_toNat d)]

theorem effect_addl_nat (x : XSel) (k : Lane) {d : Operand} (h : d.toNat ≤ 255) (s : State) :
    effect (addlInstr x k d) s = s.setX x (Spec.word (Spec.add (s.x x).toNat (d.toNat * 2 ^ (8 * k.toNat)))) := by
  have hterm : (laneTerm k d).toNat = d.toNat * 2 ^ (8 * k.toNat) % 2 ^ 32 := by
    rw [← laneTerm_toNat k h, Nat.mod_eq_of_lt (laneTerm k d).isLt]
  rw [effect_addlInstr_byte x k h, addTo_eq_setX hterm]

/-- Settles O18: one add for every register, on numbers. -/
theorem addwAddsModulo : Obligations.AddwAddsModulo := by
  unfold Obligations.AddwAddsModulo
  intro s d h
  exact ⟨exec_of_effect h (effect_addw_nat .A d s), exec_of_effect h (effect_addw_nat .B d s),
    exec_of_effect h (effect_addw_nat .C d s)⟩

/-- Settles O19: a byte in its lane loses no bit, so its summand is `d * 2^(8k)`. -/
theorem addlAddsByteIntoLane : Obligations.AddlAddsByteIntoLane := by
  unfold Obligations.AddlAddsByteIntoLane
  intro s k d h hd
  exact ⟨exec_of_effect h (effect_addl_nat .A k hd s), exec_of_effect h (effect_addl_nat .B k hd s),
    exec_of_effect h (effect_addl_nat .C k hd s)⟩

/-- Settles O20: the operand check comes before the add and raises InvalidInputEncoding. -/
theorem addlTrapsOnNonByte : Obligations.AddlTrapsOnNonByte := by
  unfold Obligations.AddlTrapsOnNonByte
  intro s k d h hd
  exact ⟨exec_of_effect h (effect_addlInstr_wide .A k hd s), exec_of_effect h (effect_addlInstr_wide .B k hd s),
    exec_of_effect h (effect_addlInstr_wide .C k hd s)⟩

/-! ## Exchanging and merging adds -/

theorem addTo_addTo_same (s : State) (x : XSel) (v w : Word) : addTo (addTo s x v) x w = addTo s x (v + w) := by
  cases x <;> simp [addTo, State.setX, BitVec.add_assoc]

/-- On one register the two sums are exchanged; on two registers the writes are of different fields. -/
theorem addTo_comm (s : State) (x y : XSel) (v w : Word) : addTo (addTo s x v) y w = addTo (addTo s y w) x v := by
  cases x <;> cases y <;> simp [addTo, State.setX, add_right_comm _ v w]

/-- An add that does not fault adds one value to one register, in every state. -/
theorem effect_of_isAdd {i : Instr} (h : Spec.IsAdd i) : ∃ (x : XSel) (v : Word), ∀ s, effect i s = addTo s x v := by
  cases i with
  | addwA d => exact ⟨.A, _, effect_addwInstr .A d⟩
  | addwB d => exact ⟨.B, _, effect_addwInstr .B d⟩
  | addwC d => exact ⟨.C, _, effect_addwInstr .C d⟩
  | addlA k d => exact ⟨.A, _, effect_addlInstr_byte .A k h⟩
  | addlB k d => exact ⟨.B, _, effect_addlInstr_byte .B k h⟩
  | addlC k d => exact ⟨.C, _, effect_addlInstr_byte .C k h⟩
  | _ => exact False.elim h

/-- Two adds one after the other: a halted block discards both, a running one takes both. -/
theorem pair_of_adds {i j : Instr} {x y : XSel} {v w : Word} (hi : ∀ s, effect i s = addTo s x v)
    (hj : ∀ s, effect j s = addTo s y w) (s : State) : Spec.pair i j s = whenRunning s (addTo (addTo s x v) y w) := by
  rw [Spec.pair]
  rcases err_cases s with h0 | h1
  · have h0' : (effect i s).err = 0#1 := by rw [hi, addTo_err, h0]
    rw [execAll_cons_running _ _ h0, execAll_cons_running _ _ h0', execAll_nil, hi, hj, whenRunning_running h0]
  · rw [execAll_halted _ h1, whenRunning_halted h1]

/-- Settles O26: both orders add the same two values to the same two registers. -/
theorem addsCommute : Obligations.AddsCommute := by
  unfold Obligations.AddsCommute
  intro s i j hi hj
  obtain ⟨x, v, hx⟩ := effect_of_isAdd hi
  obtain ⟨y, w, hy⟩ := effect_of_isAdd hj
  rw [pair_of_adds hx hy, pair_of_adds hy hx, addTo_comm]

theorem lowWord_add (d e : Operand) : lowWord (d + e) = lowWord d + lowWord e :=
  BitVec.setWidth_add d e (by decide)

/-- A byte shifted into its lane within 64 bits has that lane's term as its low word (R88). -/
theorem lowWord_shiftLeft (k : Lane) {d : Operand} (h : d.toNat ≤ 255) :
    lowWord (d <<< (8 * k.toNat)) = laneTerm k d := by
  apply BitVec.eq_of_toNat_eq
  rw [lowWord_toNat, BitVec.toNat_shiftLeft, Nat.shiftLeft_eq, Nat.mod_mod_of_dvd _ (by decide : 2 ^ 32 ∣ 2 ^ 64),
    ← laneTerm_toNat k h, Nat.mod_eq_of_lt (laneTerm k d).isLt]

/-- Settles O27: two adds into one register add the sum, and a lane add has the term of the shifted byte. -/
theorem addsMerge : Obligations.AddsMerge := by
  unfold Obligations.AddsMerge
  refine fun s x d e k => ⟨?_, fun hd => ?_⟩
  · rw [pair_of_adds (effect_addwInstr x d) (effect_addwInstr x e), addTo_addTo_same, exec_eq, effect_addwInstr,
      lowWord_add]
  · rw [exec_eq, exec_eq, effect_addlInstr_byte x k hd, effect_addwInstr, lowWord_shiftLeft k hd]

/-- One lane add of a byte, at the head of a list, on a running block. -/
theorem execAll_addl_cons (x : XSel) (k : Lane) (b : Byte) (is : List Instr) {s : State} (h : s.err = 0#1) :
    execAll (addlInstr x k (byteOperand b) :: is) s = execAll is (addTo s x (laneTerm k (byteOperand b))) := by
  rw [execAll_cons_running _ _ h, effect_addlInstr_byte x k (byteOperand_le b)]

/-- Settles O28: the four lane adds merge into the add of the sum of their terms, which is the little-endian word. -/
theorem wordAddEqualsFourLaneAdds : Obligations.WordAddEqualsFourLaneAdds := by
  unfold Obligations.WordAddEqualsFourLaneAdds
  intro s x b0 b1 b2 b3
  rcases err_cases s with h0 | h1
  · have hrun (v : Word) : (addTo s x v).err = 0#1 := by rw [addTo_err, h0]
    rw [execAll_addl_cons x 0 b0 _ h0, execAll_addl_cons x 1 b1 _ (hrun _), addTo_addTo_same,
      execAll_addl_cons x 2 b2 _ (hrun _), addTo_addTo_same, execAll_addl_cons x 3 b3 _ (hrun _), addTo_addTo_same,
      execAll_nil, exec_running _ h0, effect_addwInstr, lowWord_wordOperand, le32_eq_sum_laneTerm]
  · rw [execAll_halted _ h1, exec_halted _ h1]

end Sys2Proof.Proofs
end

section
/-! PROOFS. The MIX unit's words at the port (41_mix.md R84 to R94): each word has its command's effect, or raises
IllegalCommand where a must-be-zero bit of its format (30_encoding.md R51) is set. -/

namespace Sys2Proof.Proofs

open Sys2Proof.Machine Sys2Proof.Laws

/-- An offered word that no row matches is taken from the port and raises IllegalCommand (R141). -/
theorem step_offered_illegal {s : State} {op : BitVec 8} {f : Small} {d : Operand} {rest : List Edge}
    (ho : Spec.Offered s op f d rest) (hd : decode (fieldsWord op f d) = .error .illegalCommand) :
    step s = .next (Spec.faulted (Spec.taken s rest) 1#2) := by
  obtain ⟨herr, hport⟩ := ho
  have htaken : (s.withPort rest).err = 0#1 := herr
  calc step s
      _ = acceptCommand (fieldsWord op f d) (s.withPort rest) := step_command hport
      _ = .next ((s.withPort rest).raise .illegalCommand) := by rw [acceptCommand_running _ htaken, hd]

/-- The decoder on a word with the opcode of a row: the row's command, or IllegalCommand where a must-be-zero bit of its
format is set (R53). -/
theorem decode_of_mem_opcodeTable {row : Row} (hrow : row ∈ opcodeTable) {f : Small} {d : Operand} {p : Prop}
    [Decidable p] (hp : reservedZero row.format f d ↔ p) :
    decode (fieldsWord row.op f d) =
      if p then .ok (row.build (fieldsWord row.op f d)) else .error .illegalCommand := by
  by_cases h : p
  · rw [if_pos h]
    exact decode_of_rowMatches hrow ((rowMatches_iff row.op f d row).2 ⟨rfl, hp.2 h⟩)
  · rw [if_neg h]
    refine decode_of_no_row fun row' hrow' hmatch => h ?_
    obtain ⟨hop, hzero⟩ := (rowMatches_iff row.op f d row').1 hmatch
    rw [← row_eq_of_op_eq hrow hrow' hop] at hzero
    exact hp.1 hzero

/-- An offered word with the opcode of a row has the effect of the row's command `i`, or raises IllegalCommand. The
condition `p` is the form in which a rule says that the must-be-zero bits are 0. -/
theorem step_offered_row {row : Row} (hrow : row ∈ opcodeTable) {s : State} {f : Small} {d : Operand}
    {rest : List Edge} (ho : Spec.Offered s row.op f d rest) {p : Prop} [Decidable p]
    (hp : reservedZero row.format f d ↔ p) {i : Instr} (hi : row.build (fieldsWord row.op f d) = i) :
    step s = .next (if p then effect i (Spec.taken s rest) else Spec.faulted (Spec.taken s rest) 1#2) := by
  have hd := decode_of_mem_opcodeTable hrow hp
  rw [hi] at hd
  by_cases h : p
  · rw [if_pos h] at hd ⊢
    exact step_offered ho hd
  · rw [if_neg h] at hd ⊢
    exact step_offered_illegal ho hd

theorem small_zero_iff (f : Small) : f = 0 ↔ f.toNat = 0 := BitVec.toNat_inj.symm

/-! ## MINIT, MRND.i and MIX -/

/-- Settles O38: format S keeps `f` and `d[63:32]` at 0. -/
theorem minitWordAtThePort : Obligations.MinitWordAtThePort := by
  unfold Obligations.MinitWordAtThePort
  intro s f d rest ho
  have hrow : ⟨0x01#8, .S, fun w => .minit (imm32Of w)⟩ ∈ opcodeTable := by simp [opcodeTable]
  exact step_offered_row hrow ho (and_congr (small_zero_iff f) (upper_zero_iff d))
    (congrArg Instr.minit (imm32Of_fieldsWord _ f d))

/-- The word of a command of format Z, which has the effect `t` when all of `f` and `d` is 0. -/
theorem step_offered_formatZ {op : BitVec 8} {i : Instr} (hrow : ⟨op, .Z, fun _ => i⟩ ∈ opcodeTable) {s t : State}
    {f : Small} {d : Operand} {rest : List Edge} (ho : Spec.Offered s op f d rest)
    (ht : effect i (Spec.taken s rest) = t) :
    step s = .next (if f = 0 ∧ d = 0 then t else Spec.faulted (Spec.taken s rest) 1#2) := by
  rw [step_offered_row (p := f = 0 ∧ d = 0) hrow ho Iff.rfl rfl, ht]

/-- Settles O41: all four words are of format Z, and the commands are the rounds and the mixing step. -/
theorem mixRoundWordsAtThePort : Obligations.MixRoundWordsAtThePort := by
  unfold Obligations.MixRoundWordsAtThePort
  intro s f d rest
  exact ⟨fun ho => step_offered_formatZ (by simp [opcodeTable]) ho (effect_mrnd0 _),
    fun ho => step_offered_formatZ (by simp [opcodeTable]) ho (effect_mrnd1 _),
    fun ho => step_offered_formatZ (by simp [opcodeTable]) ho (effect_mrnd2 _),
    fun ho => step_offered_formatZ (by simp [opcodeTable]) ho (effect_mix _)⟩

/-! ## The adds -/

/-- The row of ADDW.x (R52). -/
def addwRow : XSel → Row
  | .A => ⟨0x10#8, .W, fun w => .addwA (dOf w)⟩
  | .B => ⟨0x11#8, .W, fun w => .addwB (dOf w)⟩
  | .C => ⟨0x12#8, .W, fun w => .addwC (dOf w)⟩

/-- The row of ADDL.x (R52). -/
def addlRow : XSel → Row
  | .A => ⟨0x14#8, .L, fun w => .addlA (kOf w) (dOf w)⟩
  | .B => ⟨0x15#8, .L, fun w => .addlB (kOf w) (dOf w)⟩
  | .C => ⟨0x16#8, .L, fun w => .addlC (kOf w) (dOf w)⟩

theorem addwRow_mem (x : XSel) : addwRow x ∈ opcodeTable := by
  cases x <;> simp [addwRow, opcodeTable]

theorem addlRow_mem (x : XSel) : addlRow x ∈ opcodeTable := by
  cases x <;> simp [addlRow, opcodeTable]

theorem addwRow_build (x : XSel) (op : BitVec 8) (f : Small) (d : Operand) :
    (addwRow x).build (fieldsWord op f d) = addwInstr x d := by
  cases x <;> simp [addwRow, addwInstr]

theorem addlRow_build (x : XSel) (op : BitVec 8) (f : Small) (d : Operand) :
    (addlRow x).build (fieldsWord op f d) = addlInstr x (f.setWidth 2) d := by
  cases x <;> simp [addlRow, addlInstr]

theorem addwRow_reservedZero (x : XSel) (f : Small) (d : Operand) :
    reservedZero (addwRow x).format f d ↔ f.toNat = 0 := by
  cases x <;> exact small_zero_iff f

theorem addlRow_reservedZero (x : XSel) (f : Small) (d : Operand) :
    reservedZero (addlRow x).format f d ↔ ¬ 4 ≤ f.toNat := by
  have hlane : f.extractLsb' 2 6 = 0 ↔ ¬ 4 ≤ f.toNat := by rw [lane_zero_iff]; omega
  cases x <;> exact hlane

/-- The word of ADDW.x, whichever register it names. -/
theorem step_addw {x : XSel} {s : State} {f : Small} {d : Operand} {rest : List Edge}
    (ho : Spec.Offered s (addwRow x).op f d rest) :
    step s = .next (if f.toNat = 0 then (Spec.taken s rest).setX x (Spec.word (Spec.add (s.x x).toNat d.toNat))
      else Spec.faulted (Spec.taken s rest) 1#2) := by
  rw [step_offered_row (addwRow_mem x) ho (addwRow_reservedZero x f d) (addwRow_build ..), effect_addw_nat]
  cases x <;> rfl

/-- The word of ADDL.x: the decoder looks at `f` before the command looks at its operand (R145). -/
theorem step_addl {x : XSel} {s : State} {f : Small} {d : Operand} {rest : List Edge}
    (ho : Spec.Offered s (addlRow x).op f d rest) :
    step s = .next (if 4 ≤ f.toNat then Spec.faulted (Spec.taken s rest) 1#2
      else if 255 < d.toNat then Spec.faulted (Spec.taken s rest) 2#2
      else (Spec.taken s rest).setX x (Spec.word (Spec.add (s.x x).toNat (d.toNat * 2 ^ (8 * f.toNat))))) := by
  rw [step_offered_row (addlRow_mem x) ho (addlRow_reservedZero x f d) (addlRow_build ..), ite_not]
  split_ifs with hf hd
  · rfl
  · rw [effect_addlInstr_wide x _ hd]
  · have hlane : (f.setWidth 2).toNat = f.toNat := by rw [BitVec.toNat_setWidth]; omega
    rw [effect_addl_nat x _ (Nat.not_lt.1 hd), hlane]
    cases x <;> rfl

/-- Settles O39: one step lemma for the three registers. -/
theorem addwWordsAtThePort : Obligations.AddwWordsAtThePort := by
  unfold Obligations.AddwWordsAtThePort
  intro s f d rest
  exact ⟨step_addw (x := .A), step_addw (x := .B), step_addw (x := .C)⟩

/-- Settles O40: one step lemma for the three registers. -/
theorem addlWordsAtThePort : Obligations.AddlWordsAtThePort := by
  unfold Obligations.AddlWordsAtThePort
  intro s f d rest
  exact ⟨step_addl (x := .A), step_addl (x := .B), step_addl (x := .C)⟩

end Sys2Proof.Proofs
end

section
/-! PROOFS. The OAAT unit (42_oaat.md R100 to R105): its two steps on numbers, the commands HINIT, HABS and HFIN, the
message of zero bytes, and the unit's words at the port. -/

namespace Sys2Proof.Proofs

open Sys2Proof.Machine Sys2Proof.Laws

/-! ## The two steps on numbers -/

theorem toNat_add_eq (x y : Word) : (x + y).toNat = Spec.add x.toNat y.toNat := BitVec.toNat_add x y

/-- A summand counts modulo 2^32 alone, so an element may be reduced before it is added (R100). -/
theorem add_mod_word (x n : Nat) : Spec.add x (n % 2 ^ 32) = Spec.add x n := Nat.add_mod_mod x n _

/-- Line by line, the step on words is R100's step on numbers. -/
theorem oaatStep_toNat (h : Word) (d : Operand) :
    (oaatStep h (lowWord d)).toNat = Spec.oaatStep h.toNat d.toNat := by
  simp only [oaatStep, Spec.oaatStep, oaatStepShifts, BitVec.toNat_xor, toNat_add_eq, toNat_shiftLeft_eq,
    toNat_lrs_word, lowWord_toNat, add_mod_word]

/-- Line by line, the final step on words is R101's on numbers. -/
theorem oaatFin_toNat (h : Word) : (oaatFin h).toNat = Spec.oaatFin h.toNat := by
  simp only [oaatFin, Spec.oaatFin, oaatFinShifts, BitVec.toNat_xor, toNat_add_eq, toNat_shiftLeft_eq, toNat_lrs_word]

/-! ## HINIT, HABS and HFIN -/

theorem effect_hinit (s : State) : effect .hinit s = s.setH 0#32 := rfl

theorem effect_hfin (s : State) : effect .hfin s = s.setH (Spec.word (Spec.oaatFin s.h.toNat)) := by
  rw [← oaatFin_toNat, word_toNat]
  rfl

theorem absorb_eq (s : State) (d : Operand) :
    s.absorb d = s.setH (Spec.word (Spec.oaatStep s.h.toNat d.toNat)) := by
  rw [← oaatStep_toNat, word_toNat]
  rfl

/-- HABS absorbs its element, unless the element is no byte and WIDE_ELEM is `reject` (R103). -/
theorem effect_habs_absorbs {s : State} {d : Operand} (h : ¬ (255 < d.toNat ∧ s.wideElem = .reject)) :
    effect (.habs d) s = s.setH (Spec.word (Spec.oaatStep s.h.toNat d.toNat)) := by
  rw [← absorb_eq]
  cases hw : s.wideElem with
  | asIs => exact absorbElement_asIs s d hw
  | reject => exact absorbElement_byte s (Nat.not_lt.1 fun hd => h ⟨hd, hw⟩)

theorem effect_habs_rejects {s : State} {d : Operand} (hd : 255 < d.toNat) (hw : s.wideElem = .reject) :
    effect (.habs d) s = Spec.faulted s 2#2 :=
  absorbElement_reject s hd hw

/-- Settles O30: the effect of HINIT is the write of 0. -/
theorem hinitClearsH : Obligations.HinitClearsH := by
  unfold Obligations.HinitClearsH
  intro s h
  exact exec_of_effect h (effect_hinit s)

/-- Settles O31: a byte passes the operand check under either WIDE_ELEM, and the step on words is the one on numbers. -/
theorem habsAbsorbsByte : Obligations.HabsAbsorbsByte := by
  unfold Obligations.HabsAbsorbsByte
  intro s d h hd
  exact exec_of_effect h (effect_habs_absorbs fun hwide => Nat.not_lt.2 hd hwide.1)

/-- Settles O32: `as_is` passes every element, and adding its low word adds the whole element modulo 2^32. -/
theorem habsAsIsAbsorbsWideElement : Obligations.HabsAsIsAbsorbsWideElement := by
  unfold Obligations.HabsAsIsAbsorbsWideElement
  intro s d h hw _
  exact exec_of_effect h (effect_habs_absorbs fun hwide => by simp [hw] at hwide)

/-- Settles O33: under `reject` the operand check comes before the step and raises InvalidInputEncoding. -/
theorem habsRejectTrapsOnWideElement : Obligations.HabsRejectTrapsOnWideElement := by
  unfold Obligations.HabsRejectTrapsOnWideElement
  intro s d h hw hd
  exact exec_of_effect h (effect_habs_rejects hd hw)

/-- Settles O34: the final step on words is the one on numbers. -/
theorem hfinFinishes : Obligations.HfinFinishes := by
  unfold Obligations.HfinFinishes
  intro s h
  exact exec_of_effect h (effect_hfin s)

/-! ## The message of zero bytes -/

/-- R103's corner case: no operation of the step makes a 1 bit from zeros. -/
theorem oaatStep_zero : Spec.oaatStep 0 0 = 0 := by decide

theorem oaatFin_zero : Spec.oaatFin 0 = 0 := by decide

theorem setH_of_h_eq {s : State} {v : Word} (hh : s.h = v) : s.setH v = s := by
  rw [← hh]
  rfl

theorem effect_habs_zero {s : State} (hh : s.h = 0#32) : effect (.habs 0#64) s = s := by
  rw [effect_habs_absorbs (by simp), hh, BitVec.toNat_zero, BitVec.toNat_zero, oaatStep_zero]
  exact setH_of_h_eq hh

theorem effect_hfin_zero {s : State} (hh : s.h = 0#32) : effect .hfin s = s := by
  rw [effect_hfin, hh, BitVec.toNat_zero, oaatFin_zero]
  exact setH_of_h_eq hh

/-- Commands that all leave a state as it is leave it so one after the other. -/
theorem execAll_of_fixed {is : List Instr} {s : State} (hfix : ∀ i ∈ is, effect i s = s) : execAll is s = .next s := by
  rcases err_cases s with h0 | h1
  · induction is with
    | nil => exact execAll_nil s
    | cons i is ih =>
      obtain ⟨hi, his⟩ := List.forall_mem_cons.1 hfix
      rw [execAll_cons_running i is h0, hi, ih his]
  · exact execAll_halted is h1

theorem ooatCommands_zeros (n : Nat) :
    ooatCommands (List.replicate n 0#8) = .hinit :: (List.replicate n (.habs 0#64) ++ [.hfin]) := by
  rw [ooatCommands, List.map_replicate]
  rfl

/-- Settles O35: once HINIT has cleared H, every other command of the sequence leaves the state as it is. -/
theorem zeroBytesHaveDigestZero : Obligations.ZeroBytesHaveDigestZero := by
  unfold Obligations.ZeroBytesHaveDigestZero
  intro s n h
  rw [ooatCommands_zeros, execAll_cons_running _ _ h, effect_hinit]
  refine execAll_of_fixed fun i hi => ?_
  obtain hi | hi := List.mem_append.1 hi
  · rw [List.eq_of_mem_replicate hi]
    exact effect_habs_zero rfl
  · rw [List.mem_singleton.1 hi]
    exact effect_hfin_zero rfl

/-! ## The words at the port -/

/-- Settles O42: both words are of format Z. -/
theorem hinitHfinWordsAtThePort : Obligations.HinitHfinWordsAtThePort := by
  unfold Obligations.HinitHfinWordsAtThePort
  intro s f d rest
  exact ⟨fun ho => step_offered_formatZ (by simp [opcodeTable]) ho (effect_hinit _),
    fun ho => step_offered_formatZ (by simp [opcodeTable]) ho (effect_hfin _)⟩

/-- Settles O43: format W keeps `f` at 0, and the decoder looks at it before the command looks at its operand (R145). -/
theorem habsWordAtThePort : Obligations.HabsWordAtThePort := by
  unfold Obligations.HabsWordAtThePort
  intro s f d rest ho
  have hrow : ⟨0x21#8, .W, fun w => .habs (dOf w)⟩ ∈ opcodeTable := by simp [opcodeTable]
  rw [step_offered_row (p := f = 0) hrow ho Iff.rfl (congrArg Instr.habs (dOf_fieldsWord _ f d)), ite_not]
  split_ifs with hf hwide
  · obtain ⟨hd, hw⟩ := hwide
    rw [effect_habs_rejects (s := Spec.taken s rest) hd hw]
  · rw [effect_habs_absorbs (s := Spec.taken s rest) hwide]
    rfl
  · rfl

end Sys2Proof.Proofs
end

section
/-! PROOFS. Commands of different units may be interleaved (43_host_sequences.md R126): one that does not fault changes
its own unit's registers by a function of them alone. -/

namespace Sys2Proof.Proofs

open Sys2Proof.Machine Sys2Proof.Laws

/-- A change of one unit's registers by a function of these registers alone (00_scope.md R2, R3). -/
inductive UnitChange : Unit3 → (State → State) → Prop where
  /-- A, B, C of the MIX unit. -/
  | mix (g : Triple → Triple) : UnitChange .mix fun s => s.setTriple (g s.triple)
  /-- H of the OAAT unit. -/
  | oaat (g : Word → Word) : UnitChange .oaat fun s => s.setH (g s.h)
  /-- R of the LRS unit, whose command reads no register. -/
  | lrs (v : Word) : UnitChange .lrs fun s => s.setR v

theorem UnitChange.err_eq {u : Unit3} {f : State → State} (hf : UnitChange u f) (s : State) : (f s).err = s.err := by
  cases hf <;> rfl

theorem UnitChange.wideElem_eq {u : Unit3} {f : State → State} (hf : UnitChange u f) (s : State) :
    (f s).wideElem = s.wideElem := by
  cases hf <;> rfl

/-- Changes of two units read and write different registers. -/
theorem UnitChange.comm {u v : Unit3} {f g : State → State} (hf : UnitChange u f) (hg : UnitChange v g) (huv : u ≠ v)
    (s : State) : g (f s) = f (g s) := by
  match u, v, hf, hg with
  | _, _, .mix _, .mix _ | _, _, .oaat _, .oaat _ | _, _, .lrs _, .lrs _ => exact absurd rfl huv
  | _, _, .mix _, .oaat _ | _, _, .mix _, .lrs _ | _, _, .oaat _, .lrs _ => rfl
  | _, _, .oaat _, .mix _ | _, _, .lrs _, .mix _ | _, _, .lrs _, .oaat _ => rfl

theorem addLane_err_of_not_wide {s : State} {x : XSel} {k : Lane} {d : Operand} (hd : ¬ 255 < d.toNat) :
    (s.addLane x k d).err = s.err := by
  rw [addLane_byte s x k (Nat.not_lt.1 hd), setX_err]

/-- Only ADDL.x and HABS check their operand, and one that passes the check leaves ERR as it is. -/
theorem effect_err_of_not_invalidInput {i : Instr} {s : State} (hi : ¬ Spec.InvalidInput s.wideElem i) :
    (effect i s).err = s.err := by
  cases i with
  | addlA k d | addlB k d | addlC k d => exact addLane_err_of_not_wide hi
  | habs d => rw [effect_habs_absorbs hi, setH_err]
  | _ => rfl

/-- On a running block a command that does not fault is a change of its unit, the same one wherever WIDE_ELEM is the
same. -/
theorem exists_unitChange {i : Instr} {s : State} (h0 : s.err = 0#1) (hi : ¬ Spec.InvalidInput s.wideElem i) :
    ∃ f, UnitChange (unitOf i) f ∧ ∀ t : State, t.wideElem = s.wideElem → effect i t = f t := by
  have hno : effect i s ≠ s.raise .invalidInputEncoding := fun hfault => by
    have herr := effect_err_of_not_invalidInput hi
    simp [hfault, h0] at herr
  cases hu : unitOf i with
  | mix =>
    obtain ⟨g, hg⟩ := (effect_mix_fun hu).resolve_right fun hfault => hno (hfault s)
    exact ⟨_, .mix g, fun t _ => hg t⟩
  | oaat =>
    obtain ⟨g, hg⟩ := (effect_oaat_fun hu s.wideElem).resolve_right fun hfault => hno (hfault s rfl)
    exact ⟨_, .oaat g, hg⟩
  | lrs =>
    obtain ⟨v, hv⟩ := effect_lrs_fun hu
    exact ⟨_, .lrs v, fun t _ => hv t⟩

/-- Two commands that change two units, on a running block. -/
theorem pair_of_unitChange {i j : Instr} {s : State} {u : Unit3} {f g : State → State} (h0 : s.err = 0#1)
    (hf : UnitChange u f) (hi : ∀ t : State, t.wideElem = s.wideElem → effect i t = f t)
    (hj : ∀ t : State, t.wideElem = s.wideElem → effect j t = g t) : Spec.pair i j s = .next (g (f s)) := by
  have h0' : (f s).err = 0#1 := (hf.err_eq s).trans h0
  rw [Spec.pair, execAll_cons_running _ _ h0, hi s rfl, execAll_cons_running _ _ h0', hj _ (hf.wideElem_eq s),
    execAll_nil]

/-- Settles O49: a halted block discards both commands, and on a running one they change different registers. -/
theorem commandsOfDifferentUnitsCommute : Obligations.CommandsOfDifferentUnitsCommute := by
  unfold Obligations.CommandsOfDifferentUnitsCommute
  intro s i j huv hi hj
  rcases err_cases s with h0 | h1
  · obtain ⟨f, hf, hif⟩ := exists_unitChange h0 hi
    obtain ⟨g, hg, hjg⟩ := exists_unitChange h0 hj
    rw [pair_of_unitChange h0 hf hif hjg, pair_of_unitChange h0 hg hjg hif, hf.comm hg huv]
  · rw [Spec.pair, Spec.pair, execAll_halted _ h1, execAll_halted _ h1]

end Sys2Proof.Proofs
end

section
/-! PROOFS. A command list offered at the port (43_host_sequences.md R110): its words run as its commands do. -/

namespace Sys2Proof.Proofs

open Sys2Proof.Machine Sys2Proof.Laws

/-- No command reads or writes the host's side of the port. -/
theorem effect_withPort (i : Instr) (s : State) (p : List Edge) :
    effect i (s.withPort p) = (effect i s).withPort p := by
  cases hu : unitOf i with
  | mix =>
    obtain ⟨g, hg⟩ | hfault := effect_mix_fun hu
    · rw [hg, hg]; rfl
    · rw [hfault, hfault]; rfl
  | oaat =>
    obtain ⟨g, hg⟩ | hfault := effect_oaat_fun hu s.wideElem
    · rw [hg s rfl, hg (s.withPort p) rfl]; rfl
    · rw [hfault s rfl, hfault (s.withPort p) rfl]; rfl
  | lrs =>
    obtain ⟨v, hv⟩ := effect_lrs_fun hu
    rw [hv, hv]; rfl

theorem exec_withPort {i : Instr} {s t : State} (h : exec i s = .next t) (p : List Edge) :
    exec i (s.withPort p) = .next (t.withPort p) := by
  obtain ⟨h1, rfl⟩ | ⟨h0, rfl⟩ := exec_cases h
  · exact exec_halted i h1
  · exact exec_of_effect h0 (effect_withPort i s p)

theorem execAll_cons_next {i : Instr} {s t : State} (h : exec i s = .next t) (is : List Instr) :
    execAll (i :: is) s = execAll is t := by
  simp only [execAll, h]

/-- The word of a command, offered at the port, does what the command does, in a halted block too. -/
theorem step_encode {i : Instr} {s t : State} (h : exec i s = .next t) {rest : List Edge}
    (hport : s.port = Edge.command (encode i) :: rest) : step s = .next (t.withPort rest) := by
  rw [step_command hport, acceptCommand_of_decode (decode_encode i), exec_withPort h]

/-- The words of a command list, offered one after the other, do what the commands do one after the other. -/
theorem run_commandEdges (is : List Instr) {s : State} {rest : List Edge}
    (hport : s.port = commandEdges (is.map encode) ++ rest) :
    Host.Core.run Sys2Proof.core is.length s = execAll is (s.withPort rest) := by
  induction is generalizing s with
  | nil =>
    have hall : s.withPort rest = s := by rw [show rest = s.port from hport.symm]; rfl
    rw [hall]
    rfl
  | cons i is ih =>
    obtain ⟨t, ht⟩ : ∃ t, exec i s = .next t := exec_eq i s ▸ whenRunning_next s _
    rw [List.length_cons, run_succ (step_encode ht hport), ih rfl, execAll_cons_next (exec_withPort ht rest)]
    rfl

end Sys2Proof.Proofs
end

section
/-! PROOFS. The MixHash sequence (43_host_sequences.md R112 to R118): the effect of a full block, of the tail and of the
whole list on the triple, on words and then on numbers. -/

namespace Sys2Proof.Proofs

open Sys2Proof.Machine Sys2Proof.Laws

/-! ## The tail -/

/-- A word added to each of a, b, c. -/
def addWords (t : Triple) (x y z : Word) : Triple := ⟨t.a + x, t.b + y, t.c + z⟩

/-- What a row of R116's table adds when its command is issued. -/
def addRow (t : List Byte) (s : State) (row : Nat × XSel × Lane) : State :=
  addTo s row.2.1 (laneTerm row.2.2 (byteOperand (byteAt t (row.1 - 1))))

theorem addRow_err (t : List Byte) (s : State) (row : Nat × XSel × Lane) : (addRow t s row).err = s.err := addTo_err ..

theorem laneTerm_zero (k : Lane) : laneTerm k (byteOperand 0) = 0 := by
  simp [laneTerm_byteOperand]

theorem addTo_zero (s : State) (x : XSel) : addTo s x 0 = s := by
  cases x <;> simp [addTo, State.setX]

/-- A row above the tail's length would add a byte that is not there, so it changes nothing. -/
theorem addRow_of_length_lt {t : List Byte} {row : Nat × XSel × Lane} (h : t.length < row.1) (s : State) :
    addRow t s row = s := by
  rw [addRow, byteAt_of_length_le (Nat.le_sub_one_of_lt h), laneTerm_zero, addTo_zero]

/-- The rows that the threshold keeps have the effect of all rows: the others add missing bytes, which are 0. -/
theorem execAll_rows (t : List Byte) (rows : List (Nat × XSel × Lane)) {s : State} (h0 : s.err = 0#1) :
    execAll ((rows.filter fun row => decide (row.1 ≤ t.length)).map (tailCommand t)) s =
      .next (rows.foldl (addRow t) s) := by
  induction rows generalizing s with
  | nil => rfl
  | cons row rows ih =>
    rw [List.foldl_cons]
    by_cases h : row.1 ≤ t.length
    · rw [List.filter_cons, if_pos (decide_eq_true h), List.map_cons, tailCommand, execAll_addl_cons _ _ _ _ h0]
      exact ih ((addRow_err t s row).trans h0)
    · rw [List.filter_cons, if_neg (mt of_decide_eq_true h), addRow_of_length_lt (Nat.not_le.1 h)]
      exact ih h0

/-- The little-endian word in the order in which the table issues its bytes, the top lane first. -/
theorem le32_eq_sum_laneTerm_down (b0 b1 b2 b3 : Byte) :
    le32 b0 b1 b2 b3 = laneTerm 3#2 (byteOperand b3) + laneTerm 2#2 (byteOperand b2) + laneTerm 1#2 (byteOperand b1) +
      laneTerm 0#2 (byteOperand b0) := by
  rw [le32_eq_sum_laneTerm, add_comm, add_comm (_ + _) (laneTerm 2 _), add_comm (laneTerm 0 _), ← add_assoc,
    ← add_assoc]
  rfl

theorem addTo_each (s : State) (x y z : Word) :
    addTo (addTo (addTo s .C z) .B y) .A x = s.setTriple (addWords s.triple x y z) := rfl

/-- The words of R116's closed form, added: missing bytes are 0, and c's bytes are one lane higher. -/
def addTail (tail : List Byte) (t : Triple) : Triple :=
  addWords t (le32 (byteAt tail 0) (byteAt tail 1) (byteAt tail 2) (byteAt tail 3))
    (le32 (byteAt tail 4) (byteAt tail 5) (byteAt tail 6) (byteAt tail 7))
    (le32 0 (byteAt tail 8) (byteAt tail 9) (byteAt tail 10))

/-- All eleven rows together add the three words. -/
theorem foldl_addRow_tailTable (t : List Byte) (s : State) :
    tailTable.foldl (addRow t) s = s.setTriple (addTail t s.triple) := by
  simp only [tailTable, List.foldl_cons, List.foldl_nil, addRow, addTo_addTo_same, Nat.reduceSub, addTail,
    le32_eq_sum_laneTerm_down, laneTerm_zero, add_zero, ← addTo_each]

theorem execAll_tailCommands (t : List Byte) {s : State} (h0 : s.err = 0#1) :
    execAll (tailCommands t) s = .next (s.setTriple (addTail t s.triple)) := by
  rw [tailCommands, execAll_rows t tailTable h0, foldl_addRow_tailTable]

theorem tailCommands_length {t : List Byte} (h : t.length ≤ 11) : (tailCommands t).length = t.length := by
  rw [tailCommands_eq_tailList h, Spec.tailList, List.length_map, List.length_reverse, List.length_range]

theorem tripleNums_addWords (t : Triple) (x y z : Word) : tripleNums (addWords t x y z) =
    (Spec.add t.a.toNat x.toNat, Spec.add t.b.toNat y.toNat, Spec.add t.c.toNat z.toNat) := by
  simp only [tripleNums, addWords, toNat_add_eq]

theorem tripleNums_addTail (tail : List Byte) (t : Triple) : tripleNums (addTail tail t) =
    (Spec.add t.a.toNat (Spec.wordAt tail 0), Spec.add t.b.toNat (Spec.wordAt tail 4),
      Spec.add t.c.toNat (Spec.tailC tail 0)) := by
  simp [addTail, tripleNums_addWords, le32_toNat, byteAt_toNat, Spec.wordAt, Spec.tailC]

/-- Settles O52: the rows left out would add missing bytes, which are 0, so the tail adds what all eleven rows add. -/
theorem tailTableHasItsClosedForm : Obligations.TailTableHasItsClosedForm := by
  unfold Obligations.TailTableHasItsClosedForm
  intro s t h0 h
  refine ⟨tailCommands_eq_tailList h, tailCommands_length h, ?_⟩
  rw [execAll_tailCommands t h0, ← withTriple_tripleNums, tripleNums_addTail]
  rfl

/-! ## The full blocks -/

/-- One word add at the head of a list, on a running block. -/
theorem execAll_addw_cons (x : XSel) (w : Word) (is : List Instr) {s : State} (h0 : s.err = 0#1) :
    execAll (addwInstr x (wordOperand w) :: is) s = execAll is (addTo s x w) := by
  rw [execAll_cons_running _ _ h0, effect_addwInstr, lowWord_wordOperand]

/-- MIX at the end of a list, on a running block. -/
theorem execAll_mix {s : State} (h0 : s.err = 0#1) : execAll [.mix] s = .next (s.setTriple (mixStep s.triple)) :=
  execAll_cons_running .mix [] h0

/-- MIX after a write of the triple, which it overwrites. -/
theorem execAll_mix_setTriple {s : State} (h0 : s.err = 0#1) (t : Triple) :
    execAll [.mix] (s.setTriple t) = .next (s.setTriple (mixStep t)) :=
  execAll_mix (s := s.setTriple t) h0

theorem absorbBlock_eq (data : List Byte) (t : Triple) (j : Nat) : absorbBlock data t j =
    mixStep (addWords t (blockWord data j 0) (blockWord data j 1) (blockWord data j 2)) := rfl

/-- The three adds of R114 put a word into each register before the MIX. -/
theorem execAll_blockOfWords (x y z : Word) {s : State} (h0 : s.err = 0#1) :
    execAll (blockOfWords x y z) s = .next (s.setTriple (mixStep (addWords s.triple x y z))) := by
  have hA : (addTo s .A x).err = 0#1 := h0
  have hB : (addTo (addTo s .A x) .B y).err = 0#1 := h0
  calc execAll (blockOfWords x y z) s
    _ = execAll [addwInstr .B (wordOperand y), addwInstr .C (wordOperand z), .mix] (addTo s .A x) :=
      execAll_addw_cons .A x _ h0
    _ = execAll [addwInstr .C (wordOperand z), .mix] (addTo (addTo s .A x) .B y) := execAll_addw_cons .B y _ hA
    _ = execAll [.mix] (addTo (addTo (addTo s .A x) .B y) .C z) := execAll_addw_cons .C z _ hB
    _ = execAll [.mix] (s.setTriple (addWords s.triple x y z)) := rfl
    _ = .next (s.setTriple (mixStep (addWords s.triple x y z))) := execAll_mix_setTriple h0 _

/-- A full block writes the triple of one turn of R118's loop. -/
theorem execAll_blockCommands (data : List Byte) (j : Nat) {s : State} (h0 : s.err = 0#1) :
    execAll (blockCommands data j) s = .next (s.setTriple (absorbBlock data s.triple j)) := by
  rw [blockCommands, execAll_blockOfWords _ _ _ h0, absorbBlock_eq]

theorem tripleNums_absorbBlock (data : List Byte) (t : Triple) (j : Nat) :
    tripleNums (absorbBlock data t j) = Spec.absorbBlock data (tripleNums t) j := by
  rw [absorbBlock_eq, ← mix_tripleNums, tripleNums_addWords]
  simp only [blockWord_toNat]
  rfl

/-- Settles O51: on words the block is one turn of R118's loop, which is the same on numbers. -/
theorem fullBlockAddsWordsAndMixes : Obligations.FullBlockAddsWordsAndMixes := by
  unfold Obligations.FullBlockAddsWordsAndMixes
  intro s data j h0
  refine ⟨blockCommands_eq_blockList data j, ?_⟩
  rw [execAll_blockCommands data j h0, ← withTriple_tripleNums, tripleNums_absorbBlock, nums_eq_tripleNums]

theorem execAll_blocks (data : List Byte) (js : List Nat) {s : State} (h0 : s.err = 0#1) :
    execAll (js.flatMap (blockCommands data)) s = .next (s.setTriple (js.foldl (absorbBlock data) s.triple)) := by
  induction js generalizing s with
  | nil => rfl
  | cons j js ih =>
    have h0' : (s.setTriple (absorbBlock data s.triple j)).err = 0#1 := h0
    rw [List.flatMap_cons, execAll_append _ _ (execAll_blockCommands data j h0), ih h0']
    rfl

/-! ## The whole sequence -/

theorem absorbTail_eq (len : Nat) (tail : List Byte) (t : Triple) :
    absorbTail len tail t = mixStep (addTail tail ⟨t.a, t.b, t.c + BitVec.ofNat 32 len⟩) := rfl

/-- The length add, the tail and the final MIX (R115 to R117). -/
theorem execAll_mtail (len : Nat) (t : List Byte) {s : State} (h0 : s.err = 0#1) :
    execAll (mtail len t) s = .next (s.setTriple (absorbTail len t s.triple)) := by
  have hlen : effect (.addwC (lengthOperand len)) s = addTo s .C (BitVec.ofNat 32 len) := by
    rw [← lowWord_lengthOperand]
    exact effect_addwInstr .C _ s
  have h0' : (addTo s .C (BitVec.ofNat 32 len)).err = 0#1 := h0
  rw [mtail, execAll_cons_running _ _ h0, hlen, execAll_append _ _ (execAll_tailCommands t h0'),
    execAll_mix_setTriple h0', absorbTail_eq]
  rfl

/-- On a running block the sequence leaves the triple of R118's function, whatever the registers held. -/
theorem execAll_mhash (seed : Word) (data : List Byte) {s : State} (h0 : s.err = 0#1) :
    execAll (mhash seed data) s = .next (s.setTriple (mixhashTriple data seed)) :=
  calc execAll (mhash seed data) s
    _ = execAll ((List.range (fullBlocks data)).flatMap (blockCommands data) ++ mtail data.length (tailBytes data))
          (s.setTriple (minitTriple seed)) := execAll_cons_running _ _ h0
    _ = execAll (mtail data.length (tailBytes data)) (s.setTriple _) := execAll_append _ _ (execAll_blocks data _ h0)
    _ = .next (s.setTriple (mixhashTriple data seed)) := execAll_mtail _ _ h0

theorem tripleNums_absorbTail (len : Nat) (tail : List Byte) (t : Triple) :
    tripleNums (absorbTail len tail t) = Spec.mix (Spec.add t.a.toNat (Spec.wordAt tail 0),
      Spec.add t.b.toNat (Spec.wordAt tail 4), Spec.add (Spec.add t.c.toNat len) (Spec.tailC tail 0)) := by
  have hlen : (t.c + BitVec.ofNat 32 len).toNat = Spec.add t.c.toNat len := by
    rw [toNat_add_eq, BitVec.toNat_ofNat, add_mod_word]
  rw [absorbTail_eq, ← mix_tripleNums, tripleNums_addTail, hlen]

theorem tripleNums_afterBlocks (data : List Byte) (seed : Word) :
    tripleNums ((List.range (fullBlocks data)).foldl (absorbBlock data) (minitTriple seed)) =
      Spec.afterBlocks data seed.toNat := by
  rw [← List.foldl_hom tripleNums (g₂ := Spec.absorbBlock data) fun t j => (tripleNums_absorbBlock data t j).symm]
  rfl

theorem wordAt_drop (data : List Byte) (i n : Nat) : Spec.wordAt (data.drop i) n = Spec.wordAt data (i + n) := by
  simp only [Spec.wordAt, byte_drop, Nat.add_assoc]

theorem tailC_drop (data : List Byte) (i : Nat) : Spec.tailC (data.drop i) 0 = Spec.tailC data i := by
  simp only [Spec.tailC, byte_drop, Nat.zero_add]

theorem tripleNums_mixhashTriple (data : List Byte) (seed : Word) :
    tripleNums (mixhashTriple data seed) = Spec.mixhash data seed.toNat := by
  rw [mixhashTriple, tripleNums_absorbTail, tailBytes, wordAt_drop, wordAt_drop, tailC_drop, Spec.mixhash,
    ← tripleNums_afterBlocks]
  rfl

theorem seed_eq_seedOf (seed : Option Word) : Spec.seed seed = seedOf seed := by
  cases seed <;> rfl

theorem mixhash_of_ne_nil {data : List Byte} (h : data ≠ []) (seed : Word) :
    mixhash data seed = (mixhashTriple data seed).c := by
  cases data with
  | nil => exact absurd rfl h
  | cons b rest => rfl

/-- Settles O53: at the port the words run as the commands do, and these leave the triple of the model's own function,
whose numbers are those of R118. -/
theorem mixhashSequenceComputesMixhash : Obligations.MixhashSequenceComputesMixhash := by
  unfold Obligations.MixhashSequenceComputesMixhash
  intro data seed h
  rw [seed_eq_seedOf, mixhashCommands_of_ne_nil h, ← tripleNums_mixhashTriple]
  refine ⟨mhash_eq_mhashList _ data, ?_, fun s rest h0 hport => ?_⟩
  · rw [mixhash_of_ne_nil h, tripleNums, word_toNat]
  · have hrun : (s.withPort rest).err = 0#1 := h0
    rw [run_commandEdges _ hport, execAll_mhash _ data hrun, ← withTriple_tripleNums]
    rfl

/-- Settles O54: the driver answers the empty message before it looks at the seed or at `c_q`. -/
theorem mixhashOfEmptyMessageIsZero : Obligations.MixhashOfEmptyMessageIsZero := by
  unfold Obligations.MixhashOfEmptyMessageIsZero
  exact fun _ _ => ⟨rfl, rfl, rfl⟩

/-- Settles O58: a call on a message that is not empty is R118's list for the seed of the call. -/
theorem mixhashWithoutSeedUsesZero : Obligations.MixhashWithoutSeedUsesZero := by
  unfold Obligations.MixhashWithoutSeedUsesZero
  intro data h
  refine ⟨fun seed => ?_, ?_⟩
  · rw [mixhashCommands_of_ne_nil h, seedOf_some]
    rfl
  · rw [mixhashCommands_of_ne_nil h, mixhashCommands_of_ne_nil h, seedOf_none, seedOf_some]

end Sys2Proof.Proofs
end

section
/-! PROOFS. The OneAtATime sequence (43_host_sequences.md R119, R120) and the counts of the commands of both sequences
(R118, R119). -/

namespace Sys2Proof.Proofs

open Sys2Proof.Machine Sys2Proof.Laws

/-! ## The OneAtATime sequence -/

/-- A message byte passes the operand check of HABS under either WIDE_ELEM (R103). -/
theorem effect_habs_byteOperand (b : Byte) (s : State) :
    effect (.habs (byteOperand b)) s = s.setH (oaatStep s.h (b.setWidth 32)) := by
  rw [← lowWord_byteOperand]
  exact absorbElement_byte s (byteOperand_le b)

/-- One HABS per byte of the message folds R100's step over it. -/
theorem execAll_habs (data : List Byte) {s : State} (h0 : s.err = 0#1) :
    execAll (data.map fun e => Instr.habs (byteOperand e)) s =
      .next (s.setH (data.foldl (fun h e => oaatStep h (e.setWidth 32)) s.h)) := by
  induction data generalizing s with
  | nil => rfl
  | cons b data ih =>
    have h0' : (s.setH (oaatStep s.h (b.setWidth 32))).err = 0#1 := h0
    rw [List.map_cons, execAll_cons_running _ _ h0, effect_habs_byteOperand, ih h0']
    rfl

/-- On a running block the sequence leaves `ooat(data)` in H, whatever H held. -/
theorem execAll_ooatCommands (data : List Byte) {s : State} (h0 : s.err = 0#1) :
    execAll (ooatCommands data) s = .next (s.setH (ooat data)) := by
  have h0' : (s.setH 0#32).err = 0#1 := h0
  rw [ooatCommands, execAll_cons_running _ _ h0, effect_hinit, execAll_append _ _ (execAll_habs data h0')]
  exact execAll_cons_running .hfin [] h0

theorem ooat_toNat (data : List Byte) : (ooat data).toNat = Spec.ooat data := by
  have hstep (h : Word) (e : Byte) : Spec.oaatStep h.toNat e.toNat = (oaatStep h (e.setWidth 32)).toNat := by
    rw [← lowWord_byteOperand, oaatStep_toNat, byteOperand_toNat]
  rw [ooat, oaatFin_toNat, ← List.foldl_hom BitVec.toNat (g₂ := fun h e => Spec.oaatStep h e.toNat) hstep]
  rfl

/-- Settles O55: at the port the words run as the commands do, and these fold the step over the message; on words and
on numbers the fold is the same. -/
theorem ooatSequenceComputesOoat : Obligations.OoatSequenceComputesOoat := by
  unfold Obligations.OoatSequenceComputesOoat
  intro data
  rw [← ooat_toNat, word_toNat]
  refine ⟨ooatCommands_eq_ooatList data, rfl, fun s rest h0 hport => ?_⟩
  have htaken : (s.withPort rest).err = 0#1 := h0
  rw [run_commandEdges _ hport, execAll_ooatCommands data htaken]
  rfl

/-! ## The counts -/

theorem blocks_length (data : List Byte) (js : List Nat) :
    (js.flatMap (blockCommands data)).length = 4 * js.length := by
  induction js with
  | nil => rfl
  | cons j js ih =>
    have hblock : (blockCommands data j).length = 4 := rfl
    rw [List.flatMap_cons, List.length_append, ih, hblock, List.length_cons, Nat.mul_succ, Nat.add_comm]

theorem mhash_length (seed : Word) (data : List Byte) :
    (mhash seed data).length = 4 * (data.length / 12) + data.length % 12 + 3 := by
  have hlen : (tailBytes data).length = data.length % 12 := tailBytes_length data
  have htail : (tailCommands (tailBytes data)).length = data.length % 12 := by
    rw [tailCommands_length (by omega), hlen]
  simp only [mhash, mtail, List.length_cons, List.length_append, List.length_nil, blocks_length, List.length_range,
    htail, fullBlocks, blockBytes]
  omega

theorem tailCommand_ne_mix (t : List Byte) (row : Nat × XSel × Lane) : tailCommand t row ≠ .mix := by
  unfold tailCommand addlInstr
  split <;> simp

/-- The tail's commands are all ADDL. -/
theorem filter_eq_mix_tailCommands (t : List Byte) : (tailCommands t).filter (fun i => decide (i = .mix)) = [] := by
  refine List.filter_eq_nil_iff.2 fun i hi => ?_
  obtain ⟨row, -, rfl⟩ := List.mem_map.1 hi
  simp [tailCommand_ne_mix t row]

/-- Each full block has its one MIX. -/
theorem filter_eq_mix_blocks (data : List Byte) (js : List Nat) :
    ((js.flatMap (blockCommands data)).filter fun i => decide (i = .mix)) = List.replicate js.length .mix := by
  induction js with
  | nil => rfl
  | cons j js ih =>
    rw [List.flatMap_cons, List.filter_append, ih]
    rfl

theorem mhash_mix_count (seed : Word) (data : List Byte) :
    ((mhash seed data).filter fun i => decide (i = .mix)).length = data.length / 12 + 1 := by
  simp [mhash, mtail, filter_eq_mix_blocks, filter_eq_mix_tailCommands, fullBlocks, blockBytes]

theorem ooatCommands_length (data : List Byte) : (ooatCommands data).length = data.length + 2 := by
  simp [ooatCommands]

/-- Settles O56: four commands and one MIX for each full block, one ADDL for each byte of the tail, and MINIT, the length
add and the final MIX. -/
theorem sequenceLengths : Obligations.SequenceLengths := by
  unfold Obligations.SequenceLengths
  exact ⟨fun seed data => ⟨mhash_length seed data, mhash_mix_count seed data⟩, ooatCommands_length⟩

end Sys2Proof.Proofs
end

section
/-! PROOFS. Exceptions (60_exceptions.md R140 to R144): a halted block, the illegal words, the operands that are not
bytes, and what fault entry changes. -/

namespace Sys2Proof.Proofs

open Sys2Proof.Machine Sys2Proof.Laws

/-! ## A halted block -/

/-- While ERR = 1 an edge without a reset is only taken, and past the last edge nothing happens. -/
theorem step_halted {s : State} (h1 : s.err = 1#1) (hrst : ∀ e ∈ s.port, e.rst = 0#1) :
    step s = .next (s.withPort (s.port.drop 1)) := by
  cases hport : s.port with
  | nil =>
    rw [step_nil hport, List.drop_nil, ← hport]
    rfl
  | cons e rest =>
    have hr : e.rst = 0#1 := hrst e (by simp [hport])
    rw [step_cons hport, List.drop_one, List.tail_cons]
    by_cases hv : e.cmdValid = 1#1
    · rw [risingEdge_accepts hr hv, acceptCommand_halted _ (s := s.withPort rest) h1]
    · exact risingEdge_idle hr ((BitVec.eq_zero_or_eq_one e.cmdValid).resolve_right hv) _

theorem run_halted (n : Nat) {s : State} (h1 : s.err = 1#1) (hrst : ∀ e ∈ s.port, e.rst = 0#1) :
    Host.Core.run Sys2Proof.core n s = .next (s.withPort (s.port.drop n)) := by
  induction n generalizing s with
  | zero => rfl
  | succ n ih =>
    have hrst' : ∀ e ∈ s.port.drop 1, e.rst = 0#1 := fun e he => hrst e (List.mem_of_mem_drop he)
    rw [run_succ (step_halted h1 hrst), ih (s := s.withPort (s.port.drop 1)) h1 hrst', withPort_port, List.drop_drop,
      Nat.add_comm 1 n]
    rfl

/-- Settles O7: `exec`, an accepted word and, by induction on the number of steps, a run all leave a halted block as it
is, but for the edges taken. -/
theorem haltedBlockDiscardsCommands : Obligations.HaltedBlockDiscardsCommands := by
  unfold Obligations.HaltedBlockDiscardsCommands
  intro s h1
  refine ⟨rfl, fun i => exec_halted i h1, fun w rest hport => ?_, fun n t hrst hrun => ?_⟩
  · exact (step_command hport).trans (acceptCommand_halted w h1)
  · rw [run_halted n h1 hrst] at hrun
    injection hrun with ht
    exact ht.symm

/-! ## The illegal words -/

/-- The fields of a word as R55 reads them off its number. -/
theorem opOf_toNat (w : CmdWord) : (opOf w).toNat = w.toNat / 2 ^ 72 := by
  rw [opOf, BitVec.extractLsb'_toNat, Nat.shiftRight_eq_div_pow]
  omega

theorem fOf_toNat (w : CmdWord) : (fOf w).toNat = w.toNat / 2 ^ 64 % 2 ^ 8 := by
  rw [fOf, BitVec.extractLsb'_toNat, Nat.shiftRight_eq_div_pow]

theorem dOf_toNat (w : CmdWord) : (dOf w).toNat = w.toNat % 2 ^ 64 := by
  rw [dOf, BitVec.extractLsb'_toNat, Nat.shiftRight_zero]

theorem operand_zero_iff (d : Operand) : d = 0 ↔ d.toNat = 0 := BitVec.toNat_inj.symm

/-- (a) of R55: an opcode that no row has. -/
theorem illegal_of_no_op {w : CmdWord} (hop : ∀ row ∈ opcodeTable, opOf w ≠ row.op) : Spec.Illegal w := by
  have hassigned : Spec.assigned = opcodeTable.map fun row => row.op.toNat := rfl
  refine .inl fun hmem => ?_
  rw [hassigned, ← opOf_toNat] at hmem
  obtain ⟨row, hrow, heq⟩ := List.mem_map.1 hmem
  exact hop row hrow (BitVec.eq_of_toNat_eq heq.symm)

/-- (b) of R55: the opcode of a row, and a must-be-zero bit of the row's format set. -/
theorem illegal_iff_of_op {row : Row} (hrow : row ∈ opcodeTable) {w : CmdWord} (hop : opOf w = row.op) :
    Spec.Illegal w ↔ ¬ reservedZero row.format (fOf w) (dOf w) := by
  simp only [Spec.Illegal, ← opOf_toNat, ← fOf_toNat, ← dOf_toNat, hop]
  clear hop
  revert row
  simp only [opcodeTable, List.forall_mem_cons, reservedZero, small_zero_iff, operand_zero_iff, upper_zero_iff,
    lane_zero_iff]
  simp [Spec.assigned, imp_iff_not_or]

theorem decode_eq_error_iff_illegal (w : CmdWord) : decode w = .error .illegalCommand ↔ Spec.Illegal w := by
  by_cases hop : ∃ row ∈ opcodeTable, opOf w = row.op
  · classical
    obtain ⟨row, hrow, hop⟩ := hop
    have hd := decode_of_mem_opcodeTable hrow (f := fOf w) (d := dOf w) Iff.rfl
    rw [← hop, fieldsWord_of_fields] at hd
    rw [illegal_iff_of_op hrow hop, hd]
    split_ifs with hzero <;> simp [hzero]
  · have hno : ∀ row ∈ opcodeTable, opOf w ≠ row.op := fun row hrow heq => hop ⟨row, hrow, heq⟩
    exact iff_of_true (decode_of_no_row fun row hrow hyes => hno row hrow (fields_of_rowMatches hyes).1)
      (illegal_of_no_op hno)

/-- Format N, which is that of LRS alone, has no must-be-zero bit (R51). -/
theorem not_illegal_of_op_lrs {w : CmdWord} (hop : w.toNat / 2 ^ 72 = 0x40) : ¬ Spec.Illegal w := by
  have hrow : ⟨0x40#8, .N, fun w => .lrs (fOf w) (dOf w)⟩ ∈ opcodeTable := by simp [opcodeTable]
  have hop' : opOf w = 0x40#8 := BitVec.eq_of_toNat_eq ((opOf_toNat w).trans hop)
  rw [illegal_iff_of_op hrow hop', not_not]
  trivial

/-- A command never records cause 1. -/
theorem effect_ne_raise_illegalCommand (i : Instr) {s : State} (h0 : s.err = 0#1) :
    effect i s ≠ s.raise .illegalCommand := by
  intro heq
  obtain ⟨herr, -⟩ | hfault := effect_latch_cases i s
  · simp [heq, h0] at herr
  · have hcode : excCode .illegalCommand = excCode .invalidInputEncoding :=
      congrArg State.ecause (heq.symm.trans hfault)
    exact absurd (excCode_inj hcode) (by decide)

theorem acceptCommand_eq_raise_iff (w : CmdWord) {s : State} (h0 : s.err = 0#1) :
    acceptCommand w s = .next (s.raise .illegalCommand) ↔ decode w = .error .illegalCommand := by
  rw [acceptCommand_running w h0]
  cases hd : decode w with
  | ok i => simp [effect_ne_raise_illegalCommand i h0]
  | error x => simp [(decode_error hd).1]

/-- Settles O13: the decoder refuses the illegal words, and only a refused word is answered by cause 1. -/
theorem illegalCommandExactlyOnIllegalWords : Obligations.IllegalCommandExactlyOnIllegalWords := by
  unfold Obligations.IllegalCommandExactlyOnIllegalWords
  refine ⟨decode_eq_error_iff_illegal, fun s w rest h0 hport => ?_, fun w => not_illegal_of_op_lrs⟩
  rw [step_command hport, ← decode_eq_error_iff_illegal]
  exact (acceptCommand_eq_raise_iff w (s := s.withPort rest) h0).symm

/-! ## Operands that are not bytes -/

theorem effect_eq_faulted_of_invalidInput {i : Instr} {s : State} (hi : Spec.InvalidInput s.wideElem i) :
    effect i s = Spec.faulted s 2#2 := by
  cases i with
  | addlA k d => exact effect_addlInstr_wide .A k hi s
  | addlB k d => exact effect_addlInstr_wide .B k hi s
  | addlC k d => exact effect_addlInstr_wide .C k hi s
  | habs d => exact effect_habs_rejects hi.1 hi.2
  | _ => exact False.elim hi

/-- A command whose operand passes the check leaves ERR at 0, so it is not the fault entry, and ECAUSE as it is. -/
theorem effect_latch_of_not_invalidInput {i : Instr} {s : State} (h0 : s.err = 0#1)
    (hi : ¬ Spec.InvalidInput s.wideElem i) : (effect i s).err = 0#1 ∧ (effect i s).ecause = s.ecause := by
  have herr : (effect i s).err = 0#1 := (effect_err_of_not_invalidInput hi).trans h0
  obtain ⟨-, hcause⟩ | hfault := effect_latch_cases i s
  · exact ⟨herr, hcause⟩
  · simp [hfault] at herr

/-- Settles O47: exactly the operands that the rule names fail the check. -/
theorem invalidInputExactlyOnNonBytes : Obligations.InvalidInputExactlyOnNonBytes := by
  unfold Obligations.InvalidInputExactlyOnNonBytes
  intro i s h0
  rw [exec_running i h0]
  refine ⟨⟨fun hfault => ?_, fun hi => ?_⟩, fun hi => ⟨_, rfl, effect_latch_of_not_invalidInput h0 hi⟩⟩
  · injection hfault with hfault
    by_contra hi
    have herr : (effect i s).err = 0#1 := (effect_latch_of_not_invalidInput h0 hi).1
    simp [hfault, Spec.faulted] at herr
  · rw [effect_eq_faulted_of_invalidInput hi]

/-! ## Fault entry -/

/-- Settles O46, by what a step can do: of its five cases only a command's fault entry and a refused word set ERR. -/
theorem faultsArePrecise : Obligations.FaultsArePrecise := by
  unfold Obligations.FaultsArePrecise
  intro s t h0 ht h1
  have hne : t.err ≠ s.err := by simp [h0, h1]
  obtain ⟨-, rfl⟩ | ⟨e, rest, hport, hedge⟩ := step_cases ht
  · exact absurd rfl hne
  refine ⟨e, rest, hport, ?_⟩
  obtain ⟨-, rfl⟩ | ⟨-, -, rfl⟩ | ⟨-, -, -, ⟨i, -, rfl⟩ | ⟨x, hd, rfl⟩⟩ := hedge
  · exact absurd h0.symm hne
  · exact absurd rfl hne
  · exact .inr (effect_eq_raise_of_err_ne hne)
  · rw [(decode_error hd).1]
    exact .inl rfl

end Sys2Proof.Proofs
end

section
/-! PROOFS. Reset and hazards (70_reset_and_hazards.md R160 to R169): the reset event, that every step and every run
answers a next state, and a MIX triple put back. -/

namespace Sys2Proof.Proofs

open Sys2Proof.Machine Sys2Proof.Laws

/-! ## The reset event -/

/-- An edge with `rst = 1` is the reset event: it reads neither `cmd_valid` nor `cmd` (R160). -/
theorem step_reset {s : State} {e : Edge} {rest : List Edge} (hport : s.port = e :: rest) (hr : e.rst = 1#1) :
    step s = .next (s.withPort rest).resetEvent := by
  rw [step_cons hport, risingEdge, if_pos ((isReset_iff e).2 hr)]

/-- Of the five cases of a step only the reset event takes a halted block to ERR = 0. -/
theorem reset_of_step_leaves_halt {s t : State} (h1 : s.err = 1#1) (ht : step s = .next t) (h0 : t.err = 0#1) :
    ∃ (e : Edge) (rest : List Edge), s.port = e :: rest ∧ e.rst = 1#1 := by
  have hne : t.err ≠ s.err := by simp [h0, h1]
  obtain ⟨-, rfl⟩ | ⟨e, rest, hport, ⟨hr, -⟩ | ⟨-, -, rfl⟩ | ⟨-, -, hrunning, -⟩⟩ := step_cases ht
  · exact absurd rfl hne
  · exact ⟨e, rest, hport, hr⟩
  · exact absurd rfl hne
  · exact absurd (h0.trans hrunning.symm) hne

/-- Settles O2: the next state is the reset event on the state with the edge taken, whatever is offered. -/
theorem resetHasPriorityAndAloneLeavesHalt : Obligations.ResetHasPriorityAndAloneLeavesHalt := by
  unfold Obligations.ResetHasPriorityAndAloneLeavesHalt
  exact ⟨fun s rest => ⟨(s.withPort rest).resetEvent, fun v w => step_reset rfl rfl, rfl, rfl, rfl⟩,
    fun _ _ => reset_of_step_leaves_halt⟩

/-- Settles O3: the state written out is the reset event's, field by field. -/
theorem resetEventReplacesAllState : Obligations.ResetEventReplacesAllState := by
  unfold Obligations.ResetEventReplacesAllState
  exact fun _ _ _ hport hr => step_reset hport hr

/-! ## Every step and every run answers a next state -/

/-- An edge always answers a next state, and leaves the later edges at the port. -/
theorem risingEdge_next (e : Edge) (s : State) : ∃ t, risingEdge e s = .next t ∧ t.port = s.port := by
  unfold risingEdge
  split_ifs with hreset haccept
  · exact ⟨s.resetEvent, rfl, rfl⟩
  · exact acceptCommand_next e.cmd s
  · exact ⟨s, rfl, rfl⟩

/-- A step takes one edge, if the port holds one. -/
theorem step_next (s : State) : ∃ t, step s = .next t ∧ t.port = s.port.tail := by
  cases hport : s.port with
  | nil => exact ⟨s, step_nil hport, hport⟩
  | cons e rest =>
    rw [step_cons hport]
    exact risingEdge_next e (s.withPort rest)

/-- A run of `n` steps takes the first `n` edges. -/
theorem run_next (n : Nat) (s : State) :
    ∃ t : State, Host.Core.run Sys2Proof.core n s = .next t ∧ t.port = s.port.drop n := by
  induction n generalizing s with
  | zero => exact ⟨s, run_zero s, rfl⟩
  | succ n ih =>
    obtain ⟨u, hstep, hu⟩ := step_next s
    obtain ⟨t, hrun, ht⟩ := ih u
    exact ⟨t, (run_succ hstep n).trans hrun, by rw [ht, hu, List.drop_tail]⟩

theorem acceptsAt_iff_of_offered (s : State) {e : Edge} (hv : e.cmdValid = 1#1) :
    acceptsAt s e = true ↔ e.rst ≠ 1#1 := by
  rw [acceptsAt_iff, and_iff_left hv]
  obtain hr | hr := BitVec.eq_zero_or_eq_one e.rst <;> simp [hr]

theorem drop_commandEdges (ws : List CmdWord) (rest : List Edge) :
    (commandEdges ws ++ rest).drop ws.length = rest :=
  List.drop_left' (List.length_map _)

/-- Settles O5: each step takes one edge and never stops, so a run as long as the command list takes exactly its
words. -/
theorem everyStepTerminates : Obligations.EveryStepTerminates := by
  unfold Obligations.EveryStepTerminates
  intro s
  refine ⟨rfl, fun e hv => acceptsAt_iff_of_offered s hv, ?_, fun n => ?_, fun ws rest hport => ?_⟩
  · obtain ⟨t, ht, -⟩ := step_next s
    exact ⟨t, ht⟩
  · obtain ⟨t, ht, -⟩ := run_next n s
    exact ⟨t, ht⟩
  · obtain ⟨t, ht, hleft⟩ := run_next ws.length s
    exact ⟨t, ht, by rw [hleft, hport, drop_commandEdges]⟩

/-! ## A MIX triple put back -/

/-- Settles O50: MINIT leaves A and B at the constant that the two adds have taken off `a` and `b`. -/
theorem mixTripleCanBeRestored : Obligations.MixTripleCanBeRestored := by
  unfold Obligations.MixTripleCanBeRestored
  intro s a b c h0
  have hC : (s.setTriple (minitTriple c)).err = 0#1 := h0
  have hA : (addTo (s.setTriple (minitTriple c)) .A (a - golden)).err = 0#1 := h0
  calc execAll [.minit c, addwInstr .A (wordOperand (a - golden)), addwInstr .B (wordOperand (b - golden))] s
    _ = execAll [addwInstr .A (wordOperand (a - golden)), addwInstr .B (wordOperand (b - golden))]
          (s.setTriple (minitTriple c)) := execAll_cons_running _ _ h0
    _ = execAll [addwInstr .B (wordOperand (b - golden))] (addTo (s.setTriple (minitTriple c)) .A (a - golden)) :=
      execAll_addw_cons .A _ _ hC
    _ = execAll [] (addTo (addTo (s.setTriple (minitTriple c)) .A (a - golden)) .B (b - golden)) :=
      execAll_addw_cons .B _ _ hA
    _ = .next (s.setTriple ⟨golden + (a - golden), golden + (b - golden), c⟩) := rfl
    _ = .next (s.setTriple ⟨a, b, c⟩) := by rw [add_sub_cancel, add_sub_cancel]

end Sys2Proof.Proofs
end
